-- ==== Sys2Proof/Word.lean ====
section
/-! DEFINITION. The unsigned types of 00_scope.md section 7: `u8`, `u32`, `u64`, and the two encoding formats' words.
All arithmetic on them wraps (rule R14), which is what `BitVec` addition does. -/

namespace Sys2Proof

/-- `u8` of 00_scope.md section 7. -/
abbrev Byte := BitVec 8

/-- `u32` of 00_scope.md section 7; `+32` is its addition. -/
abbrev Word := BitVec 32

/-- `u64` of 00_scope.md section 7; `+64` is its addition. -/
abbrev Count := BitVec 64

/-- A command word, format `CMD`: 10 bits (30_encoding.md R70). -/
abbrev CmdWord := BitVec 10

/-- A sequencer word, format `SEQ`: 8 bits (30_encoding.md R73). -/
abbrev SeqWord := BitVec 8

end Sys2Proof
end

