-- ==== Sys2Proof/Config.lean ====
section
/-! DEFINITION. The free values. The engine takes no size or option as a parameter (00_scope.md R6); the two open
parameters of the spec, `CmdTiming` and `ResetSignal`, bear on no rule (00_scope.md section 4) and are left out (log 12). -/

namespace Sys2Proof

/-- The values of the working variables `a`, `b`, `c`, `d` outside a transform, which the spec leaves unspecified
(10_state.md R23; 93_implementation_defined.md U7). The argument is the number of values drawn before.
No body: nothing can be proved of a value of it (log 6). -/
opaque Config.unspecifiedWord : Nat → Word

end Sys2Proof
end

