-- ==== Sys2Proof/Syntax.lean ====
section
/-! DEFINITION. The instructions: one constructor per row of the opcode table (30_encoding.md R84), the four command rows
of format `CMD` (R71) and the 66 micro-operations of format `SEQ` (R74). -/

namespace Sys2Proof

/-- The two encoding formats (30_encoding.md R70 and R73). -/
inductive Format where
  /-- The command word, presented by the host (R70). -/
  | cmd
  /-- The sequencer word, internal to the engine (R73). -/
  | seq
deriving DecidableEq, Repr

/-- Commands and micro-operations. The only operand carried in an encoding is the message byte of `UPDB` (R72): the
ignored bits of the other commands are no operand, and a round's operands are all decoded from its index (R75). -/
inductive Instr where
  /-- `RESET` (43_reset.md R180). -/
  | reset
  /-- `UPDB d` (41_update.md R140). -/
  | updb (d : Byte)
  /-- `FINISH` (42_finish.md R160). -/
  | finish
  /-- The reserved command code `op = 0b11` (30_encoding.md R77). -/
  | reserved
  /-- `T.LOAD` (40_transform.md R113). -/
  | tLoad
  -- `ROUND.F`, rounds 0 to 15 (40_transform.md R114).
  | roundF0 | roundF1 | roundF2 | roundF3 | roundF4 | roundF5 | roundF6 | roundF7
  | roundF8 | roundF9 | roundF10 | roundF11 | roundF12 | roundF13 | roundF14 | roundF15
  -- `ROUND.G`, rounds 16 to 31 (40_transform.md R115).
  | roundG16 | roundG17 | roundG18 | roundG19 | roundG20 | roundG21 | roundG22 | roundG23
  | roundG24 | roundG25 | roundG26 | roundG27 | roundG28 | roundG29 | roundG30 | roundG31
  -- `ROUND.H`, rounds 32 to 47 (40_transform.md R116).
  | roundH32 | roundH33 | roundH34 | roundH35 | roundH36 | roundH37 | roundH38 | roundH39
  | roundH40 | roundH41 | roundH42 | roundH43 | roundH44 | roundH45 | roundH46 | roundH47
  -- `ROUND.I`, rounds 48 to 63 (40_transform.md R117).
  | roundI48 | roundI49 | roundI50 | roundI51 | roundI52 | roundI53 | roundI54 | roundI55
  | roundI56 | roundI57 | roundI58 | roundI59 | roundI60 | roundI61 | roundI62 | roundI63
  /-- `T.ADD` (40_transform.md R118). -/
  | tAdd
deriving DecidableEq, Repr

end Sys2Proof
end

