-- ==== Sys2Proof/WellFormed.lean ====
section
/-! DEFINITION. Well-formedness. An instruction's one operand is a byte by its type (30_encoding.md R72), so every `Instr`
is encodable as it stands; what can be ill formed is a program: the host presents commands, never micro-operations
(R73), and a program written in the assembler's mnemonics has no reserved code in it (R80). -/

namespace Sys2Proof

/-- The format an instruction is encoded in (30_encoding.md R71 and R74). -/
def Instr.format : Instr → Format
  | .reset | .updb _ | .finish | .reserved => .cmd
  | .tLoad | .roundF0 | .roundF1 | .roundF2 | .roundF3 | .roundF4 | .roundF5 | .roundF6
  | .roundF7 | .roundF8 | .roundF9 | .roundF10 | .roundF11 | .roundF12 | .roundF13 | .roundF14
  | .roundF15 | .roundG16 | .roundG17 | .roundG18 | .roundG19 | .roundG20 | .roundG21 | .roundG22
  | .roundG23 | .roundG24 | .roundG25 | .roundG26 | .roundG27 | .roundG28 | .roundG29 | .roundG30
  | .roundG31 | .roundH32 | .roundH33 | .roundH34 | .roundH35 | .roundH36 | .roundH37 | .roundH38
  | .roundH39 | .roundH40 | .roundH41 | .roundH42 | .roundH43 | .roundH44 | .roundH45 | .roundH46
  | .roundH47 | .roundI48 | .roundI49 | .roundI50 | .roundI51 | .roundI52 | .roundI53 | .roundI54
  | .roundI55 | .roundI56 | .roundI57 | .roundI58 | .roundI59 | .roundI60 | .roundI61 | .roundI62
  | .roundI63 | .tAdd => .seq

/-- The host can present this instruction on the command channel: it is a command (30_encoding.md R70, R73). -/
def Instr.issuable (i : Instr) : Bool := i.format == .cmd

/-- The assembler has a mnemonic for this instruction (30_encoding.md R80): `RESET`, `UPDB d` or `FINISH`. -/
def Instr.hasSyntax : Instr → Bool
  | .reset | .updb _ | .finish => true
  | .reserved => false
  | .tLoad | .roundF0 | .roundF1 | .roundF2 | .roundF3 | .roundF4 | .roundF5 | .roundF6
  | .roundF7 | .roundF8 | .roundF9 | .roundF10 | .roundF11 | .roundF12 | .roundF13 | .roundF14
  | .roundF15 | .roundG16 | .roundG17 | .roundG18 | .roundG19 | .roundG20 | .roundG21 | .roundG22
  | .roundG23 | .roundG24 | .roundG25 | .roundG26 | .roundG27 | .roundG28 | .roundG29 | .roundG30
  | .roundG31 | .roundH32 | .roundH33 | .roundH34 | .roundH35 | .roundH36 | .roundH37 | .roundH38
  | .roundH39 | .roundH40 | .roundH41 | .roundH42 | .roundH43 | .roundH44 | .roundH45 | .roundH46
  | .roundH47 | .roundI48 | .roundI49 | .roundI50 | .roundI51 | .roundI52 | .roundI53 | .roundI54
  | .roundI55 | .roundI56 | .roundI57 | .roundI58 | .roundI59 | .roundI60 | .roundI61 | .roundI62
  | .roundI63 | .tAdd => false

/-- A host program is well formed: the host can present each of its instructions. -/
def Program.wf (p : List Instr) : Bool := p.all Instr.issuable

/-- A host program can be written in the assembler's syntax. -/
def Program.hasSyntax (p : List Instr) : Bool := p.all Instr.hasSyntax

end Sys2Proof
end

