-- ==== Sys2Proof/Decode.lean ====
section
/-! DEFINITION. The decoder, total on every word of both formats, and the encoder, both from the tables of
30_encoding.md (R70, R71, R73, R74). A word is a parallel value, never a byte sequence (20_memory.md R56), so no byte
order enters here. -/

namespace Sys2Proof

/-- A word of one of the two formats. -/
inductive CodeWord where
  /-- A command word: `op` in bits 9:8, `data` in bits 7:0 (30_encoding.md R70). -/
  | cmd (w : CmdWord)
  /-- A sequencer word: `ph` in bits 7:6, `rnd` in bits 5:0 (30_encoding.md R73). -/
  | seq (w : SeqWord)
deriving DecidableEq, Repr

/-- The format of a word. -/
def CodeWord.format : CodeWord → Format
  | .cmd _ => .cmd
  | .seq _ => .seq

/-- Why a word stands for no instruction. -/
inductive DecodeError where
  /-- `SEQ = 0x00`: idle, no micro-operation (30_encoding.md R74). -/
  | idle
  /-- `ph` in `IDLE`, `LOAD`, `ADD` with `rnd` not 0: unreachable, no behaviour defined (30_encoding.md R76). -/
  | unreachableSeq
  /-- A number too large for its format's width (30_encoding.md R78: 10 and 8 bits). -/
  | tooWide
deriving DecidableEq, Repr

/-! ### Fields -/

/-- `op`, bits 9:8 of a command word (30_encoding.md R70). -/
def CmdWord.op (w : CmdWord) : BitVec 2 := w.extractLsb' 8 2

/-- `data`, bits 7:0 of a command word, taken as it stands (30_encoding.md R70, R72). -/
def CmdWord.data (w : CmdWord) : Byte := w.extractLsb' 0 8

/-- `ph`, bits 7:6 of a sequencer word (30_encoding.md R73). -/
def SeqWord.ph (w : SeqWord) : BitVec 2 := w.extractLsb' 6 2

/-- `rnd`, bits 5:0 of a sequencer word (30_encoding.md R73). -/
def SeqWord.rnd (w : SeqWord) : BitVec 6 := w.extractLsb' 0 6

/-! ### Decoding -/

/-- Every command word is one of the four (30_encoding.md R71, R78). -/
def decodeCmd (w : CmdWord) : Instr :=
  match w.op.toNat with
  | 0 => .reset
  | 1 => .updb w.data
  | 2 => .finish
  | _ => .reserved

/-- The rounds of `ROUND.F` by position (30_encoding.md R73, R74). -/
def roundsF : List Instr :=
  [.roundF0, .roundF1, .roundF2, .roundF3, .roundF4, .roundF5, .roundF6, .roundF7,
   .roundF8, .roundF9, .roundF10, .roundF11, .roundF12, .roundF13, .roundF14, .roundF15]

/-- The rounds of `ROUND.G` by position (30_encoding.md R73, R74). -/
def roundsG : List Instr :=
  [.roundG16, .roundG17, .roundG18, .roundG19, .roundG20, .roundG21, .roundG22, .roundG23,
   .roundG24, .roundG25, .roundG26, .roundG27, .roundG28, .roundG29, .roundG30, .roundG31]

/-- The rounds of `ROUND.H` by position (30_encoding.md R73, R74). -/
def roundsH : List Instr :=
  [.roundH32, .roundH33, .roundH34, .roundH35, .roundH36, .roundH37, .roundH38, .roundH39,
   .roundH40, .roundH41, .roundH42, .roundH43, .roundH44, .roundH45, .roundH46, .roundH47]

/-- The rounds of `ROUND.I` by position (30_encoding.md R73, R74). -/
def roundsI : List Instr :=
  [.roundI48, .roundI49, .roundI50, .roundI51, .roundI52, .roundI53, .roundI54, .roundI55,
   .roundI56, .roundI57, .roundI58, .roundI59, .roundI60, .roundI61, .roundI62, .roundI63]

/-- The round micro-operation of index `i`, `stage = rnd[5:4]`, `pos = rnd[3:0]` (30_encoding.md R73, R74). -/
def roundInstr (i : Fin 64) : Instr :=
  (roundsF ++ (roundsG ++ (roundsH ++ roundsI))).getD i.val .tAdd

/-- A sequencer word selects a micro-operation by its phase and round index (30_encoding.md R74, R76). -/
def decodeSeq (w : SeqWord) : Except DecodeError Instr :=
  match w.ph.toNat with
  | 0 => if w.rnd = 0 then .error .idle else .error .unreachableSeq
  | 1 => if w.rnd = 0 then .ok .tLoad else .error .unreachableSeq
  | 2 => .ok (roundInstr w.rnd.toFin)
  | _ => if w.rnd = 0 then .ok .tAdd else .error .unreachableSeq

/-- Decoding, total on the words of both formats. -/
def decode : CodeWord → Except DecodeError Instr
  | .cmd w => .ok (decodeCmd w)
  | .seq w => decodeSeq w

/-- The word of a format with the numeric value `w`, where the format's width holds it (30_encoding.md R78). -/
def toCodeWord (f : Format) (w : Nat) : Except DecodeError CodeWord :=
  match f with
  | .cmd => if w < 2 ^ 10 then .ok (.cmd (BitVec.ofNat 10 w)) else .error .tooWide
  | .seq => if w < 2 ^ 8 then .ok (.seq (BitVec.ofNat 8 w)) else .error .tooWide

/-- The format of an opcode-table row of `nbits` bits: a sequencer word has 8, a command word 10 (log 9). -/
def formatOfWidth (nbits : Nat) : Format := if nbits ≤ 8 then .seq else .cmd

/-- The word an opcode-table row's bits stand for (log 9). -/
def tableWord (nbits w : Nat) : Except DecodeError CodeWord := toCodeWord (formatOfWidth nbits) w

/-- The instruction the decoder reads from a word given as a number in the opcode table's bit numbering (log 9). -/
def decodeTableWord (nbits w : Nat) : Option Instr :=
  match tableWord nbits w with
  | .error _ => none
  | .ok c =>
    match decode c with
    | .error _ => none
    | .ok i => some i

/-! ### Encoding -/

/-- The command word with the given fields: `op * 256 + data` (30_encoding.md R70). -/
def cmdWord (op : BitVec 2) (data : Byte) : CmdWord := op ++ data

/-- The sequencer word with the given fields (30_encoding.md R73). -/
def seqWord (ph : BitVec 2) (rnd : BitVec 6) : SeqWord := ph ++ rnd

/-- The canonical word of an instruction: `0x000`, `0x100 + d`, `0x200` (30_encoding.md R71), the reserved code with
`data = 0` (log 9), and the sequencer words of R74. -/
def encode : Instr → CodeWord
  | .reset => .cmd (cmdWord 0 0)
  | .updb d => .cmd (cmdWord 1 d)
  | .finish => .cmd (cmdWord 2 0)
  | .reserved => .cmd (cmdWord 3 0)
  | .tLoad => .seq (seqWord 1 0)
  | .roundF0 => .seq (seqWord 2 0)
  | .roundF1 => .seq (seqWord 2 1)
  | .roundF2 => .seq (seqWord 2 2)
  | .roundF3 => .seq (seqWord 2 3)
  | .roundF4 => .seq (seqWord 2 4)
  | .roundF5 => .seq (seqWord 2 5)
  | .roundF6 => .seq (seqWord 2 6)
  | .roundF7 => .seq (seqWord 2 7)
  | .roundF8 => .seq (seqWord 2 8)
  | .roundF9 => .seq (seqWord 2 9)
  | .roundF10 => .seq (seqWord 2 10)
  | .roundF11 => .seq (seqWord 2 11)
  | .roundF12 => .seq (seqWord 2 12)
  | .roundF13 => .seq (seqWord 2 13)
  | .roundF14 => .seq (seqWord 2 14)
  | .roundF15 => .seq (seqWord 2 15)
  | .roundG16 => .seq (seqWord 2 16)
  | .roundG17 => .seq (seqWord 2 17)
  | .roundG18 => .seq (seqWord 2 18)
  | .roundG19 => .seq (seqWord 2 19)
  | .roundG20 => .seq (seqWord 2 20)
  | .roundG21 => .seq (seqWord 2 21)
  | .roundG22 => .seq (seqWord 2 22)
  | .roundG23 => .seq (seqWord 2 23)
  | .roundG24 => .seq (seqWord 2 24)
  | .roundG25 => .seq (seqWord 2 25)
  | .roundG26 => .seq (seqWord 2 26)
  | .roundG27 => .seq (seqWord 2 27)
  | .roundG28 => .seq (seqWord 2 28)
  | .roundG29 => .seq (seqWord 2 29)
  | .roundG30 => .seq (seqWord 2 30)
  | .roundG31 => .seq (seqWord 2 31)
  | .roundH32 => .seq (seqWord 2 32)
  | .roundH33 => .seq (seqWord 2 33)
  | .roundH34 => .seq (seqWord 2 34)
  | .roundH35 => .seq (seqWord 2 35)
  | .roundH36 => .seq (seqWord 2 36)
  | .roundH37 => .seq (seqWord 2 37)
  | .roundH38 => .seq (seqWord 2 38)
  | .roundH39 => .seq (seqWord 2 39)
  | .roundH40 => .seq (seqWord 2 40)
  | .roundH41 => .seq (seqWord 2 41)
  | .roundH42 => .seq (seqWord 2 42)
  | .roundH43 => .seq (seqWord 2 43)
  | .roundH44 => .seq (seqWord 2 44)
  | .roundH45 => .seq (seqWord 2 45)
  | .roundH46 => .seq (seqWord 2 46)
  | .roundH47 => .seq (seqWord 2 47)
  | .roundI48 => .seq (seqWord 2 48)
  | .roundI49 => .seq (seqWord 2 49)
  | .roundI50 => .seq (seqWord 2 50)
  | .roundI51 => .seq (seqWord 2 51)
  | .roundI52 => .seq (seqWord 2 52)
  | .roundI53 => .seq (seqWord 2 53)
  | .roundI54 => .seq (seqWord 2 54)
  | .roundI55 => .seq (seqWord 2 55)
  | .roundI56 => .seq (seqWord 2 56)
  | .roundI57 => .seq (seqWord 2 57)
  | .roundI58 => .seq (seqWord 2 58)
  | .roundI59 => .seq (seqWord 2 59)
  | .roundI60 => .seq (seqWord 2 60)
  | .roundI61 => .seq (seqWord 2 61)
  | .roundI62 => .seq (seqWord 2 62)
  | .roundI63 => .seq (seqWord 2 63)
  | .tAdd => .seq (seqWord 3 0)

/-- The command word the host presents for a command; `none` for a micro-operation, which it never supplies
(30_encoding.md R73). -/
def commandWord (i : Instr) : Option CmdWord :=
  match encode i with
  | .cmd w => some w
  | .seq _ => none

end Sys2Proof
end

