-- ==== Sys2Proof/Machine/State.lean ====
section
/-! DEFINITION. The state of the engine as plain data: everything 10_state.md section 1 lists, the host's waiting command
words (log 1) and the counter of free values drawn (log 6); the reasons to stop; and the reset state (R230). -/

namespace Sys2Proof.Machine

/-- Four 32-bit registers: the chaining registers `A`, `B`, `C`, `D` (10_state.md R20) or the working variables
`a`, `b`, `c`, `d` (R23). -/
structure Quad where
  a : Word
  b : Word
  c : Word
  d : Word
deriving DecidableEq, Repr

/-- The sequencer register `SEQ` = (`PH`, `RND`) (10_state.md R31), as the type R76 of 30_encoding.md asks for: exactly
the 67 values that occur, so `RND` is 0 in every phase but `ROUND` (log 8). -/
inductive Seq where
  /-- (`IDLE`, 0). -/
  | idle
  /-- (`LOAD`, 0). -/
  | load
  /-- (`ROUND`, `i`). -/
  | round (i : Fin 64)
  /-- (`ADD`, 0). -/
  | add
deriving DecidableEq, Repr

/-- A storage space of the engine (20_memory.md R50), as address and byte pairs in the canonical form of `Memory.wf`.
An address that is not listed reads `0x00`, the reset contents of both spaces (70_reset_and_hazards.md R230; log 10). -/
abbrev Memory := List Host.Cell

/-- The three causes of a misuse fault (60_exceptions.md R205). -/
inductive Misuse where
  /-- Cause 1: `FINISH` while `FIN = 1` (R201). -/
  | doubleFinish
  /-- Cause 2: `UPDB` while `FIN = 1` (R202). -/
  | updateAfterFinish
  /-- Cause 3: the reserved command code (R203). -/
  | reservedCommand
deriving DecidableEq, Repr

/-- Why the machine stops. -/
inductive Fault where
  /-- A misuse of the command protocol, in the stopping form of 60_exceptions.md R210. Raised by
  `Sys2Proof.Safety.guardedStep` only, never by `step`, which takes the entry of R204 as a next state (log 4). Safe. -/
  | misuse (m : Misuse)
deriving DecidableEq, Repr

/-- Why the model gives no next state. -/
inductive Refusal where
  /-- No meaning for the instruction. Raised by a dispatch arm; no arm does. Safe. -/
  | notModelled (mnemonic : String)
  /-- The fetched word stands for no instruction (30_encoding.md R76: no behaviour defined). Raised by `step`; no state
  reaches it, since `Seq` holds only words that decode and every command word decodes (R78). Safe. -/
  | undecodable (e : DecodeError)
deriving DecidableEq, Repr

/-- The state of the engine (10_state.md section 1). -/
structure State where
  /-- The chaining registers `A`, `B`, `C`, `D` (R20). -/
  chain : Quad
  /-- The working variables `a`, `b`, `c`, `d` (R23). -/
  work : Quad
  /-- The bit counter `BITCNT` (R24). -/
  bitcnt : Count
  /-- The block buffer `BUF[0..63]` (R26, R28). -/
  buf : Memory
  /-- `BUFLEN`: the number of pending bytes and the index of the next (R27). -/
  buflen : BitVec 6
  /-- The digest output register file `DIGEST[0..15]` (R29). -/
  digest : Memory
  /-- The flag `FIN`: finalized (R30). -/
  fin : Bool
  /-- The sticky misuse code `ERR` (R32). -/
  err : BitVec 2
  /-- The sequencer register `SEQ` (R31). -/
  seq : Seq
  /-- The model's own: command words presented and not yet taken, oldest first (log 1). -/
  cmds : List CmdWord
  /-- The model's own: how many free values have been drawn (log 6). -/
  draws : Nat
deriving DecidableEq, Repr

/-- The initialization vector (10_state.md R21). -/
def initVector : Quad := ⟨0x67452301, 0xEFCDAB89, 0x98BADCFE, 0x10325476⟩

/-- The reset state (70_reset_and_hazards.md R230). The spec leaves `a`, `b`, `c`, `d` unspecified; they are 0 here
(DESIGN CHOICE, log 5). `cmds` is empty (log 1) and `draws` is 0 (log 6): the model's own fields. -/
def State.reset : State where
  chain := initVector
  work := ⟨0, 0, 0, 0⟩
  bitcnt := 0
  buf := []
  buflen := 0
  digest := []
  fin := false
  err := 0
  seq := .idle
  cmds := []
  draws := 0

end Sys2Proof.Machine
end

