-- ==== Sys2Proof/Machine/Flags.lean ====
section
/-! DEFINITION. The status fields and the counter: `ERR` codes and their stickiness (10_state.md R32, 60_exceptions.md
R204), the bit counter and its carry (10_state.md R24, R25). The engine has no condition codes (R32). -/

namespace Sys2Proof.Machine

/-- The code a cause records in `ERR` (60_exceptions.md R205). -/
def misuseCode : Misuse → BitVec 2
  | .doubleFinish => 1
  | .updateAfterFinish => 2
  | .reservedCommand => 3

/-- What `ERR` holds after a misuse: the first code since reset is kept (10_state.md R32). -/
def stickyErr (err : BitVec 2) (m : Misuse) : BitVec 2 := if err = 0 then misuseCode m else err

/-- `BITCNT_LO = BITCNT[31:0]` (10_state.md R24). -/
def bitcntLo (c : Count) : Word := c.extractLsb' 0 32

/-- `BITCNT_HI = BITCNT[63:32]` (10_state.md R24). -/
def bitcntHi (c : Count) : Word := c.extractLsb' 32 32

/-- The carry out of the low half when `n` bits are added to it (10_state.md R25). It is consumed within the command and
not kept. -/
def carryOut (lo n : Word) : Bool := 2 ^ 32 ≤ lo.toNat + n.toNat

/-- An addition to the counter seen as two halves (10_state.md R25). -/
def addHalves (hi lo n : Word) : Word × Word :=
  (hi + (if carryOut lo n then 1 else 0), lo + n)

/-- An addition to the counter: `BITCNT +64 n`, wrapping (10_state.md R24, 41_update.md R143). -/
def addBits (c n : Count) : Count := c + n

end Sys2Proof.Machine
end

