-- ==== Sys2Proof/Machine/Operands.lean ====
section
/-! DEFINITION. The operands of the micro-operations, all decoded from the round index (30_encoding.md R75): mixing
functions (40_transform.md R103 to R106), block word index (R107), shift amount (R108), round constant (R109); the
byte-order helpers of 00_scope.md section 7; and the constant tables (10_state.md R34). -/

namespace Sys2Proof.Machine

/-! ### Byte order (00_scope.md section 7, 20_memory.md R53 to R55) -/

/-- `le32(b0, b1, b2, b3)`: the first byte is the least significant. -/
def le32 (b0 b1 b2 b3 : Byte) : Word :=
  BitVec.ofNat 32 (b0.toNat + 2 ^ 8 * b1.toNat + 2 ^ 16 * b2.toNat + 2 ^ 24 * b3.toNat)

/-- `LE32(w)`: the four bytes of a word, least significant first. -/
def leBytes32 (w : Word) : List Byte :=
  [w.extractLsb' 0 8, w.extractLsb' 8 8, w.extractLsb' 16 8, w.extractLsb' 24 8]

/-- `LE64(v)`: the eight bytes of a count, least significant first. -/
def leBytes64 (v : Count) : List Byte :=
  [v.extractLsb' 0 8, v.extractLsb' 8 8, v.extractLsb' 16 8, v.extractLsb' 24 8,
   v.extractLsb' 32 8, v.extractLsb' 40 8, v.extractLsb' 48 8, v.extractLsb' 56 8]

/-! ### Rotation and mixing -/

/-- `rotl32(x, s)` for `1 <= s <= 31` (00_scope.md section 7): bit `i` becomes bit `(i + s) mod 32`. -/
def rotl32 (x : Word) (s : Nat) : Word := (x <<< s) ||| (x >>> (32 - s))

/-- Stage 1 (40_transform.md R103). -/
def mixF (x y z : Word) : Word := (x &&& y) ||| (~~~x &&& z)

/-- Stage 2 (40_transform.md R104). -/
def mixG (x y z : Word) : Word := (x &&& z) ||| (y &&& ~~~z)

/-- Stage 3 (40_transform.md R105). -/
def mixH (x y z : Word) : Word := x ^^^ y ^^^ z

/-- Stage 4 (40_transform.md R106). -/
def mixI (x y z : Word) : Word := y ^^^ (x ||| ~~~z)

/-- `Mix(i, x, y, z)`: the mixing function of the stage of round `i` (40_transform.md R100). -/
def mix (i : Fin 64) (x y z : Word) : Word :=
  if i.val < 16 then mixF x y z
  else if i.val < 32 then mixG x y z
  else if i.val < 48 then mixH x y z
  else mixI x y z

/-! ### Per-round operands -/

/-- The block word index `g(i)` (40_transform.md R107). -/
def wordIndex (i : Fin 64) : Fin 16 :=
  if i.val < 16 then Fin.ofNat 16 i.val
  else if i.val < 32 then Fin.ofNat 16 (5 * i.val + 1)
  else if i.val < 48 then Fin.ofNat 16 (3 * i.val + 5)
  else Fin.ofNat 16 (7 * i.val)

/-- The four shift amounts of each stage, by column (40_transform.md R108). -/
def shiftRows : List (List Nat) :=
  [[7, 12, 17, 22], [5, 9, 14, 20], [4, 11, 16, 23], [6, 10, 15, 21]]

/-- `S[i]`, by stage and `i mod 4` (40_transform.md R108). -/
def shiftAmount (i : Fin 64) : Nat := (shiftRows.getD (i.val / 16) []).getD (i.val % 4) 0

/-- `K[0..15]` (40_transform.md R109). -/
def roundConstantsF : List Word :=
  [0xD76AA478, 0xE8C7B756, 0x242070DB, 0xC1BDCEEE, 0xF57C0FAF, 0x4787C62A, 0xA8304613, 0xFD469501,
   0x698098D8, 0x8B44F7AF, 0xFFFF5BB1, 0x895CD7BE, 0x6B901122, 0xFD987193, 0xA679438E, 0x49B40821]

/-- `K[16..31]` (40_transform.md R109). -/
def roundConstantsG : List Word :=
  [0xF61E2562, 0xC040B340, 0x265E5A51, 0xE9B6C7AA, 0xD62F105D, 0x02441453, 0xD8A1E681, 0xE7D3FBC8,
   0x21E1CDE6, 0xC33707D6, 0xF4D50D87, 0x455A14ED, 0xA9E3E905, 0xFCEFA3F8, 0x676F02D9, 0x8D2A4C8A]

/-- `K[32..47]` (40_transform.md R109). -/
def roundConstantsH : List Word :=
  [0xFFFA3942, 0x8771F681, 0x6D9D6122, 0xFDE5380C, 0xA4BEEA44, 0x4BDECFA9, 0xF6BB4B60, 0xBEBFBC70,
   0x289B7EC6, 0xEAA127FA, 0xD4EF3085, 0x04881D05, 0xD9D4D039, 0xE6DB99E5, 0x1FA27CF8, 0xC4AC5665]

/-- `K[48..63]` (40_transform.md R109). -/
def roundConstantsI : List Word :=
  [0xF4292244, 0x432AFF97, 0xAB9423A7, 0xFC93A039, 0x655B59C3, 0x8F0CCC92, 0xFFEFF47D, 0x85845DD1,
   0x6FA87E4F, 0xFE2CE6E0, 0xA3014314, 0x4E0811A1, 0xF7537E82, 0xBD3AF235, 0x2AD7D2BB, 0xEB86D391]

/-- `K[i]` (40_transform.md R109). -/
def roundConstant (i : Fin 64) : Word :=
  (roundConstantsF ++ (roundConstantsG ++ (roundConstantsH ++ roundConstantsI))).getD i.val 0

/-! ### Padding -/

/-- The padding template `PAD[0..63]` (10_state.md R34). -/
def padTemplate : List Byte := 0x80 :: List.replicate 63 0x00

/-- `padlen` for `p = BUFLEN` at entry to `FINISH` (42_finish.md R160, R162): 1 to 64 bytes. -/
def padLength (buflen : BitVec 6) : Nat :=
  if buflen.toNat < 56 then 56 - buflen.toNat else 120 - buflen.toNat

/-- The padding bytes `PAD[0 .. padlen)`: `0x80`, then `padlen - 1` times `0x00` (42_finish.md R160, R162). -/
def padding (buflen : BitVec 6) : List Byte := padTemplate.take (padLength buflen)

end Sys2Proof.Machine
end

