-- ==== Sys2Proof/Machine/Ops.lean ====
section
/-! DEFINITION. The shared operations: the memory primitives `MemRead` and `MemWrite` (00_scope.md section 7), the entry
of a misuse fault (60_exceptions.md R204), the steps of the sequencer (40_transform.md R110 to R119), the update path
`Absorb` (41_update.md R141), and the store of the digest (42_finish.md R164). -/

namespace Sys2Proof.Machine

/-! ### Memory -/

/-- The byte an address that is not listed reads: the reset contents of `BUF` and `DIGEST` (R230; log 10). -/
def blankByte : Byte := 0x00

/-- One byte of a storage space. -/
def Memory.read : Memory → Nat → Byte
  | [], _ => blankByte
  | (k, v) :: m, a => if a = k then v else Memory.read m a

/-- The memory without the cells of one address. -/
def Memory.erase (a : Nat) (m : Memory) : Memory := m.filter (fun c => c.1 != a)

/-- A cell put in front of the first one with a greater address. -/
def Memory.insert (a : Nat) (v : Byte) : Memory → Memory
  | [] => [(a, v)]
  | (k, x) :: m => if a < k then (a, v) :: (k, x) :: m else (k, x) :: Memory.insert a v m

/-- Write one byte, keeping the canonical form: writing what an unlisted address reads removes the cell. -/
def Memory.write (m : Memory) (a : Nat) (v : Byte) : Memory :=
  if v = blankByte then Memory.erase a m else Memory.insert a v (Memory.erase a m)

/-- The canonical form from a lower bound on: addresses strictly rising and below `size`, no byte that an unlisted
address reads. -/
def Memory.wfFrom (size : Nat) : Nat → Memory → Bool
  | _, [] => true
  | lo, (k, v) :: m => lo ≤ k && k < size && v != blankByte && Memory.wfFrom size (k + 1) m

/-- The canonical form of a storage space of `size` bytes. -/
def Memory.wf (size : Nat) (m : Memory) : Bool := Memory.wfFrom size 0 m

/-- Write bytes at rising addresses. -/
def Memory.writeBytes : Memory → Nat → List Byte → Memory
  | m, _, [] => m
  | m, a, v :: vs => Memory.writeBytes (Memory.write m a v) (a + 1) vs

/-- The bytes of `n` addresses from `a` on. -/
def Memory.readBytes (m : Memory) (a n : Nat) : List Byte := (List.range n).map (fun k => Memory.read m (a + k))

/-- `X[j] = MemRead(BUF, 4*j, 4)`: block word `j` of a buffer, little-endian (40_transform.md R102). -/
def blockWord (buf : Memory) (j : Fin 16) : Word :=
  le32 (Memory.read buf (4 * j.val)) (Memory.read buf (4 * j.val + 1))
    (Memory.read buf (4 * j.val + 2)) (Memory.read buf (4 * j.val + 3))

/-- `MemWrite(m, a, 4, w)`: `LE32(w)` at `a`, `a + 1`, `a + 2`, `a + 3` (00_scope.md section 7). -/
def storeWord (m : Memory) (a : Nat) (w : Word) : Memory := Memory.writeBytes m a (leBytes32 w)

/-- The four stores of `FINISH` to `DIGEST` (42_finish.md R160, R164). -/
def storeDigest (m : Memory) (q : Quad) : Memory :=
  storeWord (storeWord (storeWord (storeWord m 0 q.a) 4 q.b) 8 q.c) 12 q.d

/-! ### The entry of a misuse fault -/

/-- `raise Misuse(code)` (60_exceptions.md R204): `ERR` takes the code if it is 0, and the command ends. Nothing is saved
and control goes nowhere; there is no return instruction (R209), so no return operation stands beside this one. -/
def raiseMisuse (m : Misuse) (s : State) : State := { s with err := stickyErr s.err m }

/-! ### The sequencer -/

/-- `SEQ` after round `i`: the next round, and after round 63 the phase `ADD` (40_transform.md R119). -/
def seqAfterRound (i : Fin 64) : Seq := if h : i.val < 63 then .round ⟨i.val + 1, by omega⟩ else .add

/-- One round on four words, given its mix, block word, constant and shift (40_transform.md R110). -/
def roundQuad (f x k : Word) (s : Nat) (q : Quad) : Quad :=
  ⟨q.d, q.b + rotl32 (f + q.a + k + x) s, q.b, q.c⟩

/-- A round on the state, given its mix and its block word index: the part the four `ROUND` rules share
(40_transform.md R110, R114 to R117). -/
def roundWith (i : Fin 64) (f : Word) (g : Fin 16) (s : State) : State :=
  { s with
    work := roundQuad f (blockWord s.buf g) (roundConstant i) (shiftAmount i) s.work
    seq := seqAfterRound i }

/-- `T.LOAD` (40_transform.md R113). -/
def loadOp (s : State) : State := { s with work := s.chain, seq := .round 0 }

/-- `ROUND.F` (40_transform.md R114). -/
def roundF (i : Fin 64) (s : State) : State :=
  roundWith i (mixF s.work.b s.work.c s.work.d) (Fin.ofNat 16 i.val) s

/-- `ROUND.G` (40_transform.md R115). -/
def roundG (i : Fin 64) (s : State) : State :=
  roundWith i (mixG s.work.b s.work.c s.work.d) (Fin.ofNat 16 (5 * i.val + 1)) s

/-- `ROUND.H` (40_transform.md R116). -/
def roundH (i : Fin 64) (s : State) : State :=
  roundWith i (mixH s.work.b s.work.c s.work.d) (Fin.ofNat 16 (3 * i.val + 5)) s

/-- `ROUND.I` (40_transform.md R117). -/
def roundI (i : Fin 64) (s : State) : State :=
  roundWith i (mixI s.work.b s.work.c s.work.d) (Fin.ofNat 16 (7 * i.val)) s

/-- Round `i`, by its stage (40_transform.md R119). -/
def roundOp (i : Fin 64) (s : State) : State :=
  if i.val < 16 then roundF i s
  else if i.val < 32 then roundG i s
  else if i.val < 48 then roundH i s
  else roundI i s

/-- Four words added to four words, each wrapping on its own (40_transform.md R118). -/
def addQuads (p q : Quad) : Quad := ⟨p.a + q.a, p.b + q.b, p.c + q.c, p.d + q.d⟩

/-- Four free values, for the working variables outside a transform (10_state.md R23; log 6). -/
def unspecifiedQuad (n : Nat) : Quad :=
  ⟨Config.unspecifiedWord n, Config.unspecifiedWord (n + 1), Config.unspecifiedWord (n + 2),
    Config.unspecifiedWord (n + 3)⟩

/-- `T.ADD` (40_transform.md R118). It ends the transform, and with it the working variables' existence: their values are
free from here on (10_state.md R23; DEDUCED, log 6). -/
def addOp (s : State) : State :=
  { s with
    chain := addQuads s.chain s.work
    seq := .idle
    work := unspecifiedQuad s.draws
    draws := s.draws + 4 }

/-- The micro-operation that `SEQ` selects; none when idle (40_transform.md R119). -/
def microStep (s : State) : State :=
  match s.seq with
  | .idle => s
  | .load => loadOp s
  | .round i => roundOp i s
  | .add => addOp s

/-- `n` micro-operations. -/
def runSequencer : Nat → State → State
  | 0, s => s
  | n + 1, s => runSequencer n (microStep s)

/-- The micro-operations of one transform: `T.LOAD`, 64 rounds, `T.ADD` (40_transform.md R119). -/
def transformSteps : Nat := 66

/-- Start the compression engine and run the sequencer to (`IDLE`, 0) (40_transform.md R112). -/
def runTransform (s : State) : State := runSequencer transformSteps { s with seq := .load }

/-! ### The update path -/

/-- The address `Absorb` writes its byte to (41_update.md R141). -/
def absorbAddress (s : State) : Nat := s.buflen.toNat

/-- The byte stored and counted: the first two lines of `Absorb` (41_update.md R141). -/
def storeByte (d : Byte) (s : State) : State :=
  { s with buf := Memory.write s.buf (absorbAddress s) d, bitcnt := addBits s.bitcnt 8 }

/-- `Absorb(d)` (41_update.md R141). -/
def absorb (d : Byte) (s : State) : State :=
  if s.buflen = 63 then { runTransform (storeByte d s) with buflen := 0 }
  else { storeByte d s with buflen := s.buflen + 1 }

/-- `Absorb` of each byte, in order. -/
def absorbAll : List Byte → State → State
  | [], s => s
  | d :: ds, s => absorbAll ds (absorb d s)

/-! ### Finishing and resetting -/

/-- The bytes `FINISH` sends through the update path: the padding, then `LE64(L)` with `L` the counter as it stands on
entry (42_finish.md R160 to R163). -/
def finishBytes (s : State) : List Byte := padding s.buflen ++ leBytes64 s.bitcnt

/-- `FINISH` on an engine that is not finalized (42_finish.md R160): absorb, write `DIGEST`, set `FIN`. -/
def finishMessage (s : State) : State :=
  let t := absorbAll (finishBytes s) s
  { t with digest := storeDigest t.digest t.chain, fin := true }

/-- `RESET`: every register that has a reset value takes it (43_reset.md R180). The working variables have none and stay
as they are, and so do the model's own fields (log 7). -/
def resetRegisters (s : State) : State :=
  { State.reset with work := s.work, cmds := s.cmds, draws := s.draws }

end Sys2Proof.Machine
end

