-- ==== Sys2Proof/Machine/Command.lean ====
section
/-! DEFINITION. The meanings of the four command words: `RESET` (43_reset.md R180), `UPDB` (41_update.md R140), `FINISH`
(42_finish.md R160), and the reserved code (30_encoding.md R77). A misuse is taken as the entry of 60_exceptions.md R204
(log 4). -/

namespace Sys2Proof.Machine

/-- `RESET` (43_reset.md R180): legal in every state (R181). -/
def execReset (s : State) : Host.Outcome State Fault Refusal := .next (resetRegisters s)

/-- `UPDB d` (41_update.md R140): `Misuse(2)` on a finalized engine (60_exceptions.md R202), else `Absorb(d)`. -/
def execUpdb (d : Byte) (s : State) : Host.Outcome State Fault Refusal :=
  if s.fin then .next (raiseMisuse .updateAfterFinish s) else .next (absorb d s)

/-- `FINISH` (42_finish.md R160): `Misuse(1)` on a finalized engine (60_exceptions.md R201), else the message ends. -/
def execFinish (s : State) : Host.Outcome State Fault Refusal :=
  if s.fin then .next (raiseMisuse .doubleFinish s) else .next (finishMessage s)

/-- The reserved command code (30_encoding.md R77): `Misuse(3)`, whatever `FIN` is (60_exceptions.md R203). -/
def execReserved (s : State) : Host.Outcome State Fault Refusal := .next (raiseMisuse .reservedCommand s)

end Sys2Proof.Machine
end

