-- ==== Sys2Proof/Machine/Engine.lean ====
section
/-! DEFINITION. The meanings of the 66 micro-operations of the compression engine: `T.LOAD`, the 64 rounds, `T.ADD`
(40_transform.md R113 to R118). None raises an exception or writes a flag (R101). -/

namespace Sys2Proof.Machine

/-- `T.LOAD` (40_transform.md R113). -/
def execTLoad (s : State) : Host.Outcome State Fault Refusal := .next (loadOp s)

/-! ### `ROUND.F`, rounds 0 to 15 (40_transform.md R114) -/

/-- Round 0 (R114). -/
def execRoundF0 (s : State) : Host.Outcome State Fault Refusal := .next (roundF 0 s)

/-- Round 1 (R114). -/
def execRoundF1 (s : State) : Host.Outcome State Fault Refusal := .next (roundF 1 s)

/-- Round 2 (R114). -/
def execRoundF2 (s : State) : Host.Outcome State Fault Refusal := .next (roundF 2 s)

/-- Round 3 (R114). -/
def execRoundF3 (s : State) : Host.Outcome State Fault Refusal := .next (roundF 3 s)

/-- Round 4 (R114). -/
def execRoundF4 (s : State) : Host.Outcome State Fault Refusal := .next (roundF 4 s)

/-- Round 5 (R114). -/
def execRoundF5 (s : State) : Host.Outcome State Fault Refusal := .next (roundF 5 s)

/-- Round 6 (R114). -/
def execRoundF6 (s : State) : Host.Outcome State Fault Refusal := .next (roundF 6 s)

/-- Round 7 (R114). -/
def execRoundF7 (s : State) : Host.Outcome State Fault Refusal := .next (roundF 7 s)

/-- Round 8 (R114). -/
def execRoundF8 (s : State) : Host.Outcome State Fault Refusal := .next (roundF 8 s)

/-- Round 9 (R114). -/
def execRoundF9 (s : State) : Host.Outcome State Fault Refusal := .next (roundF 9 s)

/-- Round 10 (R114). -/
def execRoundF10 (s : State) : Host.Outcome State Fault Refusal := .next (roundF 10 s)

/-- Round 11 (R114). -/
def execRoundF11 (s : State) : Host.Outcome State Fault Refusal := .next (roundF 11 s)

/-- Round 12 (R114). -/
def execRoundF12 (s : State) : Host.Outcome State Fault Refusal := .next (roundF 12 s)

/-- Round 13 (R114). -/
def execRoundF13 (s : State) : Host.Outcome State Fault Refusal := .next (roundF 13 s)

/-- Round 14 (R114). -/
def execRoundF14 (s : State) : Host.Outcome State Fault Refusal := .next (roundF 14 s)

/-- Round 15 (R114). -/
def execRoundF15 (s : State) : Host.Outcome State Fault Refusal := .next (roundF 15 s)

/-! ### `ROUND.G`, rounds 16 to 31 (40_transform.md R115) -/

/-- Round 16 (R115). -/
def execRoundG16 (s : State) : Host.Outcome State Fault Refusal := .next (roundG 16 s)

/-- Round 17 (R115). -/
def execRoundG17 (s : State) : Host.Outcome State Fault Refusal := .next (roundG 17 s)

/-- Round 18 (R115). -/
def execRoundG18 (s : State) : Host.Outcome State Fault Refusal := .next (roundG 18 s)

/-- Round 19 (R115). -/
def execRoundG19 (s : State) : Host.Outcome State Fault Refusal := .next (roundG 19 s)

/-- Round 20 (R115). -/
def execRoundG20 (s : State) : Host.Outcome State Fault Refusal := .next (roundG 20 s)

/-- Round 21 (R115). -/
def execRoundG21 (s : State) : Host.Outcome State Fault Refusal := .next (roundG 21 s)

/-- Round 22 (R115). -/
def execRoundG22 (s : State) : Host.Outcome State Fault Refusal := .next (roundG 22 s)

/-- Round 23 (R115). -/
def execRoundG23 (s : State) : Host.Outcome State Fault Refusal := .next (roundG 23 s)

/-- Round 24 (R115). -/
def execRoundG24 (s : State) : Host.Outcome State Fault Refusal := .next (roundG 24 s)

/-- Round 25 (R115). -/
def execRoundG25 (s : State) : Host.Outcome State Fault Refusal := .next (roundG 25 s)

/-- Round 26 (R115). -/
def execRoundG26 (s : State) : Host.Outcome State Fault Refusal := .next (roundG 26 s)

/-- Round 27 (R115). -/
def execRoundG27 (s : State) : Host.Outcome State Fault Refusal := .next (roundG 27 s)

/-- Round 28 (R115). -/
def execRoundG28 (s : State) : Host.Outcome State Fault Refusal := .next (roundG 28 s)

/-- Round 29 (R115). -/
def execRoundG29 (s : State) : Host.Outcome State Fault Refusal := .next (roundG 29 s)

/-- Round 30 (R115). -/
def execRoundG30 (s : State) : Host.Outcome State Fault Refusal := .next (roundG 30 s)

/-- Round 31 (R115). -/
def execRoundG31 (s : State) : Host.Outcome State Fault Refusal := .next (roundG 31 s)

/-! ### `ROUND.H`, rounds 32 to 47 (40_transform.md R116) -/

/-- Round 32 (R116). -/
def execRoundH32 (s : State) : Host.Outcome State Fault Refusal := .next (roundH 32 s)

/-- Round 33 (R116). -/
def execRoundH33 (s : State) : Host.Outcome State Fault Refusal := .next (roundH 33 s)

/-- Round 34 (R116). -/
def execRoundH34 (s : State) : Host.Outcome State Fault Refusal := .next (roundH 34 s)

/-- Round 35 (R116). -/
def execRoundH35 (s : State) : Host.Outcome State Fault Refusal := .next (roundH 35 s)

/-- Round 36 (R116). -/
def execRoundH36 (s : State) : Host.Outcome State Fault Refusal := .next (roundH 36 s)

/-- Round 37 (R116). -/
def execRoundH37 (s : State) : Host.Outcome State Fault Refusal := .next (roundH 37 s)

/-- Round 38 (R116). -/
def execRoundH38 (s : State) : Host.Outcome State Fault Refusal := .next (roundH 38 s)

/-- Round 39 (R116). -/
def execRoundH39 (s : State) : Host.Outcome State Fault Refusal := .next (roundH 39 s)

/-- Round 40 (R116). -/
def execRoundH40 (s : State) : Host.Outcome State Fault Refusal := .next (roundH 40 s)

/-- Round 41 (R116). -/
def execRoundH41 (s : State) : Host.Outcome State Fault Refusal := .next (roundH 41 s)

/-- Round 42 (R116). -/
def execRoundH42 (s : State) : Host.Outcome State Fault Refusal := .next (roundH 42 s)

/-- Round 43 (R116). -/
def execRoundH43 (s : State) : Host.Outcome State Fault Refusal := .next (roundH 43 s)

/-- Round 44 (R116). -/
def execRoundH44 (s : State) : Host.Outcome State Fault Refusal := .next (roundH 44 s)

/-- Round 45 (R116). -/
def execRoundH45 (s : State) : Host.Outcome State Fault Refusal := .next (roundH 45 s)

/-- Round 46 (R116). -/
def execRoundH46 (s : State) : Host.Outcome State Fault Refusal := .next (roundH 46 s)

/-- Round 47 (R116). -/
def execRoundH47 (s : State) : Host.Outcome State Fault Refusal := .next (roundH 47 s)

/-! ### `ROUND.I`, rounds 48 to 63 (40_transform.md R117) -/

/-- Round 48 (R117). -/
def execRoundI48 (s : State) : Host.Outcome State Fault Refusal := .next (roundI 48 s)

/-- Round 49 (R117). -/
def execRoundI49 (s : State) : Host.Outcome State Fault Refusal := .next (roundI 49 s)

/-- Round 50 (R117). -/
def execRoundI50 (s : State) : Host.Outcome State Fault Refusal := .next (roundI 50 s)

/-- Round 51 (R117). -/
def execRoundI51 (s : State) : Host.Outcome State Fault Refusal := .next (roundI 51 s)

/-- Round 52 (R117). -/
def execRoundI52 (s : State) : Host.Outcome State Fault Refusal := .next (roundI 52 s)

/-- Round 53 (R117). -/
def execRoundI53 (s : State) : Host.Outcome State Fault Refusal := .next (roundI 53 s)

/-- Round 54 (R117). -/
def execRoundI54 (s : State) : Host.Outcome State Fault Refusal := .next (roundI 54 s)

/-- Round 55 (R117). -/
def execRoundI55 (s : State) : Host.Outcome State Fault Refusal := .next (roundI 55 s)

/-- Round 56 (R117). -/
def execRoundI56 (s : State) : Host.Outcome State Fault Refusal := .next (roundI 56 s)

/-- Round 57 (R117). -/
def execRoundI57 (s : State) : Host.Outcome State Fault Refusal := .next (roundI 57 s)

/-- Round 58 (R117). -/
def execRoundI58 (s : State) : Host.Outcome State Fault Refusal := .next (roundI 58 s)

/-- Round 59 (R117). -/
def execRoundI59 (s : State) : Host.Outcome State Fault Refusal := .next (roundI 59 s)

/-- Round 60 (R117). -/
def execRoundI60 (s : State) : Host.Outcome State Fault Refusal := .next (roundI 60 s)

/-- Round 61 (R117). -/
def execRoundI61 (s : State) : Host.Outcome State Fault Refusal := .next (roundI 61 s)

/-- Round 62 (R117). -/
def execRoundI62 (s : State) : Host.Outcome State Fault Refusal := .next (roundI 62 s)

/-- Round 63 (R117). -/
def execRoundI63 (s : State) : Host.Outcome State Fault Refusal := .next (roundI 63 s)

/-- `T.ADD` (40_transform.md R118). -/
def execTAdd (s : State) : Host.Outcome State Fault Refusal := .next (addOp s)

end Sys2Proof.Machine
end

