-- ==== Sys2Proof/Machine/Dispatch.lean ====
section
/-! DEFINITION. One arm per instruction: each a direct call of its meaning. -/

namespace Sys2Proof.Machine

def exec (i : Instr) (s : State) : Host.Outcome State Fault Refusal :=
  match i with
  | .reset => Sys2Proof.Machine.execReset s
  | .updb d => Sys2Proof.Machine.execUpdb d s
  | .finish => Sys2Proof.Machine.execFinish s
  | .reserved => Sys2Proof.Machine.execReserved s
  | .tLoad => Sys2Proof.Machine.execTLoad s
  | .roundF0 => Sys2Proof.Machine.execRoundF0 s
  | .roundF1 => Sys2Proof.Machine.execRoundF1 s
  | .roundF2 => Sys2Proof.Machine.execRoundF2 s
  | .roundF3 => Sys2Proof.Machine.execRoundF3 s
  | .roundF4 => Sys2Proof.Machine.execRoundF4 s
  | .roundF5 => Sys2Proof.Machine.execRoundF5 s
  | .roundF6 => Sys2Proof.Machine.execRoundF6 s
  | .roundF7 => Sys2Proof.Machine.execRoundF7 s
  | .roundF8 => Sys2Proof.Machine.execRoundF8 s
  | .roundF9 => Sys2Proof.Machine.execRoundF9 s
  | .roundF10 => Sys2Proof.Machine.execRoundF10 s
  | .roundF11 => Sys2Proof.Machine.execRoundF11 s
  | .roundF12 => Sys2Proof.Machine.execRoundF12 s
  | .roundF13 => Sys2Proof.Machine.execRoundF13 s
  | .roundF14 => Sys2Proof.Machine.execRoundF14 s
  | .roundF15 => Sys2Proof.Machine.execRoundF15 s
  | .roundG16 => Sys2Proof.Machine.execRoundG16 s
  | .roundG17 => Sys2Proof.Machine.execRoundG17 s
  | .roundG18 => Sys2Proof.Machine.execRoundG18 s
  | .roundG19 => Sys2Proof.Machine.execRoundG19 s
  | .roundG20 => Sys2Proof.Machine.execRoundG20 s
  | .roundG21 => Sys2Proof.Machine.execRoundG21 s
  | .roundG22 => Sys2Proof.Machine.execRoundG22 s
  | .roundG23 => Sys2Proof.Machine.execRoundG23 s
  | .roundG24 => Sys2Proof.Machine.execRoundG24 s
  | .roundG25 => Sys2Proof.Machine.execRoundG25 s
  | .roundG26 => Sys2Proof.Machine.execRoundG26 s
  | .roundG27 => Sys2Proof.Machine.execRoundG27 s
  | .roundG28 => Sys2Proof.Machine.execRoundG28 s
  | .roundG29 => Sys2Proof.Machine.execRoundG29 s
  | .roundG30 => Sys2Proof.Machine.execRoundG30 s
  | .roundG31 => Sys2Proof.Machine.execRoundG31 s
  | .roundH32 => Sys2Proof.Machine.execRoundH32 s
  | .roundH33 => Sys2Proof.Machine.execRoundH33 s
  | .roundH34 => Sys2Proof.Machine.execRoundH34 s
  | .roundH35 => Sys2Proof.Machine.execRoundH35 s
  | .roundH36 => Sys2Proof.Machine.execRoundH36 s
  | .roundH37 => Sys2Proof.Machine.execRoundH37 s
  | .roundH38 => Sys2Proof.Machine.execRoundH38 s
  | .roundH39 => Sys2Proof.Machine.execRoundH39 s
  | .roundH40 => Sys2Proof.Machine.execRoundH40 s
  | .roundH41 => Sys2Proof.Machine.execRoundH41 s
  | .roundH42 => Sys2Proof.Machine.execRoundH42 s
  | .roundH43 => Sys2Proof.Machine.execRoundH43 s
  | .roundH44 => Sys2Proof.Machine.execRoundH44 s
  | .roundH45 => Sys2Proof.Machine.execRoundH45 s
  | .roundH46 => Sys2Proof.Machine.execRoundH46 s
  | .roundH47 => Sys2Proof.Machine.execRoundH47 s
  | .roundI48 => Sys2Proof.Machine.execRoundI48 s
  | .roundI49 => Sys2Proof.Machine.execRoundI49 s
  | .roundI50 => Sys2Proof.Machine.execRoundI50 s
  | .roundI51 => Sys2Proof.Machine.execRoundI51 s
  | .roundI52 => Sys2Proof.Machine.execRoundI52 s
  | .roundI53 => Sys2Proof.Machine.execRoundI53 s
  | .roundI54 => Sys2Proof.Machine.execRoundI54 s
  | .roundI55 => Sys2Proof.Machine.execRoundI55 s
  | .roundI56 => Sys2Proof.Machine.execRoundI56 s
  | .roundI57 => Sys2Proof.Machine.execRoundI57 s
  | .roundI58 => Sys2Proof.Machine.execRoundI58 s
  | .roundI59 => Sys2Proof.Machine.execRoundI59 s
  | .roundI60 => Sys2Proof.Machine.execRoundI60 s
  | .roundI61 => Sys2Proof.Machine.execRoundI61 s
  | .roundI62 => Sys2Proof.Machine.execRoundI62 s
  | .roundI63 => Sys2Proof.Machine.execRoundI63 s
  | .tAdd => Sys2Proof.Machine.execTAdd s

end Sys2Proof.Machine
end

