-- ==== Sys2Proof/Machine/Fetch.lean ====
section
/-! DEFINITION. Where the next word comes from: the sequencer register while a transform runs (40_transform.md R119), else
the command channel (20_memory.md R60; log 1, log 3). -/

namespace Sys2Proof.Machine

/-- The content of `SEQ` as a sequencer word (30_encoding.md R73). -/
def seqRegisterWord : Seq → SeqWord
  | .idle => seqWord 0 0
  | .load => seqWord 1 0
  | .round i => seqWord 2 (BitVec.ofFin i)
  | .add => seqWord 3 0

/-- The `SEQ` value with a given word; `none` for the words that no value has (30_encoding.md R76). -/
def seqOfWord (w : SeqWord) : Option Seq :=
  match w.ph.toNat with
  | 0 => if w.rnd = 0 then some .idle else none
  | 1 => if w.rnd = 0 then some .load else none
  | 2 => some (.round w.rnd.toFin)
  | _ => if w.rnd = 0 then some .add else none

/-- Take the oldest waiting command word off the channel, if there is one (log 1). -/
def fetchCommand (s : State) : Option (CodeWord × State) :=
  match s.cmds with
  | [] => none
  | w :: ws => some (.cmd w, { s with cmds := ws })

/-- The next word and the state after taking it. Between commands the sequencer is idle and the word is the host's; while
a transform runs `SEQ` selects it (10_state.md R31). -/
def fetch (s : State) : Option (CodeWord × State) :=
  match s.seq with
  | .idle => fetchCommand s
  | .load => some (.seq (seqRegisterWord .load), s)
  | .round i => some (.seq (seqRegisterWord (.round i)), s)
  | .add => some (.seq (seqRegisterWord .add), s)

/-- Put a word where the next fetch takes it: a sequencer word into `SEQ`; a command word at the front of the channel,
with the sequencer idle. A word that stands for no `SEQ` value leaves the state as it is (log 8). -/
def placeWord (c : CodeWord) (s : State) : State :=
  match c with
  | .cmd w => { s with seq := .idle, cmds := w :: s.cmds }
  | .seq w =>
    match seqOfWord w with
    | none => s
    | some q => { s with seq := q }

end Sys2Proof.Machine
end

