-- ==== Sys2Proof/Machine/Step.lean ====
section
/-! DEFINITION. One step: fetch, decode, execute. With the sequencer idle a step is one whole command (00_scope.md R7;
log 3); with no word waiting the engine holds all of its state (60_exceptions.md R216; log 2). -/

namespace Sys2Proof.Machine

/-- One step of the engine. -/
def step (s : State) : Host.Outcome State Fault Refusal :=
  match fetch s with
  | none => .next s
  | some (c, t) =>
    match decode c with
    | .error e => .refused (.undecodable e)
    | .ok i => exec i t

/-- The state with an opcode-table word placed where the next step fetches it (log 9). A number that is no word of its
format leaves the state as it is. -/
def State.withFetchWord (s : State) (nbits w : Nat) : State :=
  match tableWord nbits w with
  | .error _ => s
  | .ok c => placeWord c s

end Sys2Proof.Machine
end

