-- ==== Sys2Proof/Machine/Reference.lean ====
section
/-! DEFINITION. The spec's functional forms beside the machine: `Transform` (40_transform.md R100), the digest as one
function of the message (42_finish.md R169), and the block-wise `Update(m)` (41_update.md R144). The step does not use
them; the statements compare the machine with them. -/

namespace Sys2Proof.Machine

/-- The sixteen words of a block, `X[0..15]` (40_transform.md R100; 93_implementation_defined.md U15: sixteen by type). -/
abbrev Block := Fin 16 → Word

/-- The block a buffer holds (10_state.md R33). -/
def bufferBlock (buf : Memory) : Block := fun j => blockWord buf j

/-- The block that the first 64 bytes of a sequence form, each word little-endian (20_memory.md R53). -/
def blockOfBytes (bs : List Byte) : Block := fun j =>
  le32 (bs.getD (4 * j.val) 0) (bs.getD (4 * j.val + 1) 0) (bs.getD (4 * j.val + 2) 0) (bs.getD (4 * j.val + 3) 0)

/-- Round `i` as a function of the working variables (40_transform.md R110). -/
def roundFn (X : Block) (q : Quad) (i : Fin 64) : Quad :=
  roundQuad (mix i q.b q.c q.d) (X (wordIndex i)) (roundConstant i) (shiftAmount i) q

/-- Rounds 0 to 63, in this order (40_transform.md R100). -/
def roundsFn (X : Block) (q : Quad) : Quad := (List.finRange 64).foldl (roundFn X) q

/-- `Transform(A, B, C, D, X[0..15])` (40_transform.md R100). -/
def transform (q : Quad) (X : Block) : Quad := addQuads q (roundsFn X q)

/-- `Transform` folded over `n` blocks of 64 bytes (42_finish.md R169). -/
def foldBlocks : Nat → Quad → List Byte → Quad
  | 0, q, _ => q
  | n + 1, q, bs => foldBlocks n (transform q (blockOfBytes bs)) (bs.drop 64)

/-- `LE32(A) ‖ LE32(B) ‖ LE32(C) ‖ LE32(D)` (20_memory.md R55). -/
def quadBytes (q : Quad) : List Byte := leBytes32 q.a ++ leBytes32 q.b ++ leBytes32 q.c ++ leBytes32 q.d

/-- `z`, the least number of zero bytes that makes the padded length a multiple of 64 (42_finish.md R169). -/
def zeroCount (n : Nat) : Nat := (119 - n % 64) % 64

/-- `m ‖ 0x80 ‖ 0x00^z ‖ LE64(8n mod 2^64)` (42_finish.md R169). -/
def paddedMessage (m : List Byte) : List Byte :=
  m ++ (0x80 :: (List.replicate (zeroCount m.length) 0x00 ++ leBytes64 (BitVec.ofNat 64 (8 * m.length))))

/-- `MD5(m)`, the sixteen digest bytes (42_finish.md R169). -/
def md5 (m : List Byte) : List Byte :=
  quadBytes (foldBlocks ((paddedMessage m).length / 64) initVector (paddedMessage m))

/-- The loop of `Update(m)` on the bytes still to come, with fuel for its iterations (41_update.md R144). -/
def updateLoop : Nat → List Byte → State → State
  | 0, _, s => s
  | fuel + 1, m, s =>
    if 64 ≤ s.buflen.toNat + m.length then
      let take := 64 - s.buflen.toNat
      let filled := { s with buf := Memory.writeBytes s.buf s.buflen.toNat (m.take take) }
      updateLoop fuel (m.drop take) { runTransform filled with buflen := 0 }
    else
      { s with
        buf := Memory.writeBytes s.buf s.buflen.toNat m
        buflen := s.buflen + BitVec.ofNat 6 m.length }

/-- `Update(m)`, block-wise (41_update.md R144). Each iteration but the last takes at least one byte, so one more than the
length is fuel enough. -/
def updateSlice (m : List Byte) (s : State) : State :=
  updateLoop (m.length + 1) m { s with bitcnt := addBits s.bitcnt (BitVec.ofNat 64 (8 * m.length)) }

end Sys2Proof.Machine
end

