-- ==== Sys2Proof/Machine/Pseudo.lean ====
section
/-! DEFINITION. The host's side: what it observes (00_scope.md R9, 20_memory.md R52), the commands it issues, the
pseudo-instructions (30_encoding.md R83) and the one-shot `HEXDIGEST` with its rendering (44_oneshot.md R190, R191). None
of it adds state to the engine. -/

namespace Sys2Proof.Machine

/-! ### Observation -/

/-- The bytes `DIGEST[0..15]` (20_memory.md R52). -/
def digestBytes (s : State) : List Byte := Memory.readBytes s.digest 0 16

/-- The number whose byte `j` is element `j` of the sequence. -/
def bytesNumber : List Byte → Nat
  | [] => 0
  | b :: bs => b.toNat + 2 ^ 8 * bytesNumber bs

/-- What the host can observe at an observation point: (`DIGEST`, `FIN`, `ERR`) (00_scope.md R9). -/
structure Observation where
  /-- The 128-bit output: byte `DIGEST[j]` in bits `8j+7 : 8j` (20_memory.md R52). -/
  digest : BitVec 128
  fin : Bool
  err : BitVec 2
deriving DecidableEq, Repr

/-- The outputs, driven at all times; reading them changes nothing (20_memory.md R52). -/
def observe (s : State) : Observation := ⟨BitVec.ofNat 128 (bytesNumber (digestBytes s)), s.fin, s.err⟩

/-! ### Pseudo-instructions -/

/-- The pseudo-instructions (30_encoding.md R83). -/
inductive Pseudo where
  /-- `NEW`: hardware reset of a fresh instance; on one instance it is `RESET` (43_reset.md R183; log 13). -/
  | new
  /-- `UPDATE m` (41_update.md R144, R145). -/
  | update (m : List Byte)
  /-- `DIGEST?`: no command; the host reads the outputs. -/
  | readDigest
  /-- `HEXDIGEST m` (44_oneshot.md R190). -/
  | hexdigest (m : List Byte)
deriving DecidableEq, Repr

/-- The commands a pseudo-instruction expands to on one engine instance (30_encoding.md R83). -/
def Pseudo.expand : Pseudo → List Instr
  | .new => [.reset]
  | .update m => m.map .updb
  | .readDigest => []
  | .hexdigest m => .reset :: (m.map .updb ++ [.finish])

/-! ### Issuing commands -/

/-- The host presents the words of a program's commands, behind those already waiting. -/
def issue (p : List Instr) (s : State) : State := { s with cmds := s.cmds ++ p.filterMap commandWord }

/-- A run of a program on an engine with no word waiting: one step per command (00_scope.md R9). -/
def runProgram (p : List Instr) (s : State) : Host.Outcome State Fault Refusal :=
  Host.Core.run Sys2Proof.core p.length (issue p s)

/-! ### Rendering -/

/-- A lowercase hex digit (44_oneshot.md R191). -/
def hexDigit (n : Nat) : Char :=
  ['0', '1', '2', '3', '4', '5', '6', '7', '8', '9', 'a', 'b', 'c', 'd', 'e', 'f'].getD n '0'

/-- `hex(bytes)`: two digits a byte, most significant nibble first (44_oneshot.md R191), as the list of its characters
(log 13). -/
def hex : List Byte → List Char
  | [] => []
  | b :: bs => hexDigit (b.toNat / 16) :: hexDigit (b.toNat % 16) :: hex bs

/-- `HEXDIGEST m` on an engine: its commands, then the rendering of `DIGEST` (44_oneshot.md R190). -/
def hexdigest (m : List Byte) (s : State) : Option (List Char) :=
  match runProgram (Pseudo.expand (.hexdigest m)) s with
  | .next t => some (hex (digestBytes t))
  | .fault _ => none
  | .refused _ => none

/-- The UTF-8 bytes of a character (PRESUMED, log 15: the spec names the encoding and gives no table of it). -/
def utf8Bytes (c : Char) : List Byte := (String.utf8EncodeChar c).map UInt8.toBitVec

/-- A text input is taken as its UTF-8 bytes, with no terminator and no newline (44_oneshot.md R190). -/
def textBytes (t : List Char) : List Byte := t.flatMap utf8Bytes

/-- `HEXDIGEST` of a text string (44_oneshot.md R190). -/
def hexdigestText (t : List Char) (s : State) : Option (List Char) := hexdigest (textBytes t) s

end Sys2Proof.Machine
end

