-- ==== Sys2Proof/Machine/Assembler.lean ====
section
/-! DEFINITION. The assembler syntax of 30_encoding.md R80 and R83, on lists of characters: one command or
pseudo-instruction per line, a comment from `;` on. It is host-side text, not hardware; what R80 and R83 leave open about
the text is chosen here (log 14). -/

namespace Sys2Proof.Machine

/-- Why a line is no line of the syntax. -/
inductive AsmError where
  /-- No such mnemonic. -/
  | unknownMnemonic
  /-- The operand is not of the form the mnemonic takes. -/
  | badOperand
  /-- Something other than a comment follows the statement. -/
  | trailingText
deriving DecidableEq, Repr

/-- One line's content. -/
inductive Statement where
  /-- A command. -/
  | command (i : Instr)
  /-- A pseudo-instruction. -/
  | pseudo (p : Pseudo)
  /-- Nothing, or a comment only. -/
  | blank
deriving DecidableEq, Repr

/-- The single quote. -/
def singleQuote : Char := Char.ofNat 39

/-- The double quote. -/
def doubleQuote : Char := Char.ofNat 34

/-- Printable ASCII. -/
def isPrintable (c : Char) : Bool := 32 ≤ c.toNat && c.toNat ≤ 126

/-- A character's byte. -/
def charByte (c : Char) : Byte := BitVec.ofNat 8 c.toNat

/-- The line less its leading blanks. -/
def skipBlanks : List Char → List Char
  | [] => []
  | c :: cs => if c = ' ' then skipBlanks cs else c :: cs

/-- The line's first word and the rest of the line. -/
def takeWord : List Char → List Char × List Char
  | [] => ([], [])
  | c :: cs => if c = ' ' ∨ c = ';' then ([], c :: cs) else (c :: (takeWord cs).1, (takeWord cs).2)

/-- The value of a decimal digit. -/
def decValue (c : Char) : Option Nat :=
  if 48 ≤ c.toNat ∧ c.toNat ≤ 57 then some (c.toNat - 48) else none

/-- The value of a hex digit of either case. -/
def hexValue (c : Char) : Option Nat :=
  if 48 ≤ c.toNat ∧ c.toNat ≤ 57 then some (c.toNat - 48)
  else if 65 ≤ c.toNat ∧ c.toNat ≤ 70 then some (c.toNat - 55)
  else if 97 ≤ c.toNat ∧ c.toNat ≤ 102 then some (c.toNat - 87)
  else none

/-- A numeral's value in a base, with the value of the digits before. -/
def numeral (digit : Char → Option Nat) (base : Nat) : Nat → List Char → Option Nat
  | acc, [] => some acc
  | acc, c :: cs =>
    match digit c with
    | none => none
    | some v => numeral digit base (acc * base + v) cs

/-- A byte as a numeral, `0`-`255` or `0x00`-`0xFF` (30_encoding.md R80). -/
def byteNumeral (w : List Char) : Option Byte :=
  let n :=
    match w with
    | [] => none
    | ['0', 'x'] => none
    | '0' :: 'x' :: ds => numeral hexValue 16 0 ds
    | ds => numeral decValue 10 0 ds
  match n with
  | none => none
  | some v => if v < 256 then some (BitVec.ofNat 8 v) else none

/-- The operand of `UPDB`: a quoted printable character or a numeral, and the rest of the line (30_encoding.md R80). -/
def byteOperand (l : List Char) : Option (Byte × List Char) :=
  match l with
  | q :: c :: q' :: rest =>
    if q = singleQuote then
      if q' = singleQuote ∧ isPrintable c then some (charByte c, rest) else none
    else
      match byteNumeral (takeWord l).1 with
      | none => none
      | some b => some (b, (takeWord l).2)
  | _ =>
    match byteNumeral (takeWord l).1 with
    | none => none
    | some b => some (b, (takeWord l).2)

/-- The UTF-8 bytes of a quoted string up to its closing quote (44_oneshot.md R190), and the rest of the line. Every
character but the double quote stands for itself, a `;` too (DESIGN CHOICE, log 14). -/
def stringBytes : List Char → Option (List Byte × List Char)
  | [] => none
  | c :: cs =>
    if c = doubleQuote then some ([], cs)
    else
      match stringBytes cs with
      | none => none
      | some (bs, rest) => some (utf8Bytes c ++ bs, rest)

/-- Hex bytes up to a closing bracket, two digits each, and the rest of the line; the fuel bounds the reading. Blanks
between the bytes may be left out, so that `[616263]` reads as `[61 62 63]` does (DESIGN CHOICE, log 14: R83 shows only the
latter). -/
def bracketBytes : Nat → List Char → Option (List Byte × List Char)
  | 0, _ => none
  | fuel + 1, l =>
    match skipBlanks l with
    | [] => none
    | c :: cs =>
      if c = ']' then some ([], cs)
      else
        match cs with
        | [] => none
        | d :: ds =>
          match hexValue c, hexValue d, bracketBytes fuel ds with
          | some h, some n, some (bs, rest) => some (BitVec.ofNat 8 (16 * h + n) :: bs, rest)
          | _, _, _ => none

/-- The operand of `UPDATE` and `HEXDIGEST`: a quoted string, or hex bytes in brackets (30_encoding.md R83). -/
def bytesOperand (l : List Char) : Option (List Byte × List Char) :=
  match l with
  | [] => none
  | c :: cs =>
    if c = doubleQuote then stringBytes cs
    else if c = '[' then bracketBytes (cs.length + 1) cs
    else none

/-- The statement, if nothing but blanks and a comment follows it. -/
def endOfLine (st : Statement) (rest : List Char) : Except AsmError Statement :=
  match skipBlanks rest with
  | [] => .ok st
  | c :: _ => if c = ';' then .ok st else .error .trailingText

/-- A statement with a byte sequence for its operand. -/
def withBytes (f : List Byte → Pseudo) (rest : List Char) : Except AsmError Statement :=
  match bytesOperand (skipBlanks rest) with
  | none => .error .badOperand
  | some (bs, l) => endOfLine (.pseudo (f bs)) l

/-- One line of the syntax (30_encoding.md R80, R83). Mnemonics are upper-case. -/
def assembleLine (line : List Char) : Except AsmError Statement :=
  let l := skipBlanks line
  match takeWord l with
  | ([], rest) => endOfLine .blank rest
  | (['R', 'E', 'S', 'E', 'T'], rest) => endOfLine (.command .reset) rest
  | (['F', 'I', 'N', 'I', 'S', 'H'], rest) => endOfLine (.command .finish) rest
  | (['U', 'P', 'D', 'B'], rest) =>
    match byteOperand (skipBlanks rest) with
    | none => .error .badOperand
    | some (b, l') => endOfLine (.command (.updb b)) l'
  | (['N', 'E', 'W'], rest) => endOfLine (.pseudo .new) rest
  | (['D', 'I', 'G', 'E', 'S', 'T', '?'], rest) => endOfLine (.pseudo .readDigest) rest
  | (['U', 'P', 'D', 'A', 'T', 'E'], rest) => withBytes .update rest
  | (['H', 'E', 'X', 'D', 'I', 'G', 'E', 'S', 'T'], rest) => withBytes .hexdigest rest
  | _ => .error .unknownMnemonic

/-- The commands of a statement. -/
def Statement.commands : Statement → List Instr
  | .command i => [i]
  | .pseudo p => p.expand
  | .blank => []

/-- The commands of a listing's lines, in order. -/
def assemble : List (List Char) → Except AsmError (List Instr)
  | [] => .ok []
  | l :: ls =>
    match assembleLine l with
    | .error e => .error e
    | .ok st =>
      match assemble ls with
      | .error e => .error e
      | .ok is => .ok (st.commands ++ is)

/-- An upper-case hex digit. -/
def hexDigitUpper (n : Nat) : Char :=
  ['0', '1', '2', '3', '4', '5', '6', '7', '8', '9', 'A', 'B', 'C', 'D', 'E', 'F'].getD n '0'

/-- A command's text; `none` for what has no syntax (30_encoding.md R80). -/
def instrText (i : Instr) : Option (List Char) :=
  match i with
  | .reset => some ['R', 'E', 'S', 'E', 'T']
  | .finish => some ['F', 'I', 'N', 'I', 'S', 'H']
  | .updb d =>
    some ['U', 'P', 'D', 'B', ' ', '0', 'x', hexDigitUpper (d.toNat / 16), hexDigitUpper (d.toNat % 16)]
  | .reserved => none
  | .tLoad | .roundF0 | .roundF1 | .roundF2 | .roundF3 | .roundF4 | .roundF5 | .roundF6
  | .roundF7 | .roundF8 | .roundF9 | .roundF10 | .roundF11 | .roundF12 | .roundF13 | .roundF14
  | .roundF15 | .roundG16 | .roundG17 | .roundG18 | .roundG19 | .roundG20 | .roundG21 | .roundG22
  | .roundG23 | .roundG24 | .roundG25 | .roundG26 | .roundG27 | .roundG28 | .roundG29 | .roundG30
  | .roundG31 | .roundH32 | .roundH33 | .roundH34 | .roundH35 | .roundH36 | .roundH37 | .roundH38
  | .roundH39 | .roundH40 | .roundH41 | .roundH42 | .roundH43 | .roundH44 | .roundH45 | .roundH46
  | .roundH47 | .roundI48 | .roundI49 | .roundI50 | .roundI51 | .roundI52 | .roundI53 | .roundI54
  | .roundI55 | .roundI56 | .roundI57 | .roundI58 | .roundI59 | .roundI60 | .roundI61 | .roundI62
  | .roundI63 | .tAdd => none

/-- A listing line's word: three hex digits (30_encoding.md R70, R80). -/
def wordText (w : CmdWord) : List Char :=
  [hexDigitUpper (w.toNat / 256), hexDigitUpper (w.toNat / 16 % 16), hexDigitUpper (w.toNat % 16)]

/-- A listing line: the word, two blanks, the command's text (30_encoding.md R80). -/
def listingLine (i : Instr) : Option (List Char) :=
  match commandWord i, instrText i with
  | some w, some t => some (wordText w ++ (' ' :: ' ' :: t))
  | _, _ => none

end Sys2Proof.Machine
end

