-- ==== Sys2Proof/Safety.lean ====
section
/-! DEFINITION. What counts as a safe run, in the terms the statements use: the table of misuse faults (60_exceptions.md
R205), the stopping form of the step (R210), the invariants of observation points (10_state.md R36, R37, R39), and what
two states share when only the working variables differ (R23). -/

namespace Sys2Proof.Safety

open Sys2Proof.Machine

/-! ### Misuse -/

/-- The cause an instruction raises on a state, if any: the complete table of 60_exceptions.md R205. Micro-operations raise
nothing. -/
def misuseOf (i : Instr) (s : State) : Option Misuse :=
  match i with
  | .finish => if s.fin then some .doubleFinish else none
  | .updb _ => if s.fin then some .updateAfterFinish else none
  | .reserved => some .reservedCommand
  | .reset => none
  | .tLoad | .roundF0 | .roundF1 | .roundF2 | .roundF3 | .roundF4 | .roundF5 | .roundF6
  | .roundF7 | .roundF8 | .roundF9 | .roundF10 | .roundF11 | .roundF12 | .roundF13 | .roundF14
  | .roundF15 | .roundG16 | .roundG17 | .roundG18 | .roundG19 | .roundG20 | .roundG21 | .roundG22
  | .roundG23 | .roundG24 | .roundG25 | .roundG26 | .roundG27 | .roundG28 | .roundG29 | .roundG30
  | .roundG31 | .roundH32 | .roundH33 | .roundH34 | .roundH35 | .roundH36 | .roundH37 | .roundH38
  | .roundH39 | .roundH40 | .roundH41 | .roundH42 | .roundH43 | .roundH44 | .roundH45 | .roundH46
  | .roundH47 | .roundI48 | .roundI49 | .roundI50 | .roundI51 | .roundI52 | .roundI53 | .roundI54
  | .roundI55 | .roundI56 | .roundI57 | .roundI58 | .roundI59 | .roundI60 | .roundI61 | .roundI62
  | .roundI63 | .tAdd => none

/-- The step in the stopping form of 60_exceptions.md R210: a fault with the cause where the fetched instruction is a
misuse, else the step. -/
def guardedStep (s : State) : Host.Outcome State Fault Refusal :=
  match fetch s with
  | none => .next s
  | some (c, t) =>
    match decode c with
    | .error e => .refused (.undecodable e)
    | .ok i =>
      match misuseOf i t with
      | some m => .fault (.misuse m)
      | none => exec i t

/-- `DIGEST` is a digest: `FIN = 1` and no misuse since reset (00_scope.md R9). -/
def digestValid (s : State) : Bool := s.fin && s.err == 0

/-! ### Invariants -/

/-- Both storage spaces are in canonical form and within their sizes, 64 and 16 bytes (20_memory.md R50). It holds at every
micro-step. -/
def StorageOk (s : State) : Prop := Memory.wf 64 s.buf = true ∧ Memory.wf 16 s.digest = true

/-- What holds at every observation point. -/
structure ObservationInv (s : State) : Prop where
  /-- The storage spaces are well formed. -/
  storage : StorageOk s
  /-- The compression engine is idle (10_state.md R39). -/
  idle : s.seq = .idle
  /-- The counter counts whole bytes (10_state.md R37). -/
  wholeBytes : s.bitcnt.toNat % 8 = 0
  /-- `BUFLEN = (BITCNT div 8) mod 64` (10_state.md R37). -/
  pending : s.buflen.toNat = s.bitcnt.toNat / 8 % 64
  /-- Before finalization `DIGEST` is all zero (10_state.md R39). -/
  noDigest : s.fin = false → digestBytes s = List.replicate 16 0x00
  /-- After it no byte is pending (10_state.md R37). -/
  noPending : s.fin = true → s.buflen = 0

/-! ### Messages -/

/-- The pending bytes `BUF[0..BUFLEN)` (10_state.md R26). -/
def pendingBytes (s : State) : List Byte := Memory.readBytes s.buf 0 s.buflen.toNat

/-- The engine is between two commands and none is waiting: where a host program is issued. -/
def Ready (s : State) : Prop := s.seq = .idle ∧ s.cmds = []

/-- The machine in the stopping form of 60_exceptions.md R210. -/
def guardedCore : Host.Core :=
  { State := State, Fault := Fault, Refusal := Refusal, step := guardedStep, reset := State.reset }

/-! ### Words -/

/-- A word with its ignored bits cleared: the `data` bits of every command but `UPDB` (30_encoding.md R71, R72; the
reserved code's, R70). -/
def canonicalWord : CodeWord → CodeWord
  | .cmd w => if w.op = 1 then .cmd w else .cmd (cmdWord w.op 0)
  | .seq w => .seq w

/-! ### The working variables -/

/-- The same state but for the working variables and the model's count of free values. -/
def SameButWork (s t : State) : Prop := t = { s with work := t.work, draws := t.draws }

end Sys2Proof.Safety
end

