-- ==== Sys2Proof/Certificates/Slice0/Obligations.lean ====
section
/-! DEFINITION. The statements for the provers, from the numbered rules of spec/. A rule that the spec marks as its own
decision is a rule of the spec here; one it marks as derived, or a choice of this model's log, makes a statement
"derived". -/

namespace Sys2Proof.Safety

open Sys2Proof.Machine

/-! ### Shared by the statements -/

/-- Every piece of state with a reset value has it (70_reset_and_hazards.md R230). -/
structure HasResetValues (s : State) : Prop where
  chain : s.chain = ⟨0x67452301, 0xEFCDAB89, 0x98BADCFE, 0x10325476⟩
  bitcnt : s.bitcnt = 0
  buflen : s.buflen = 0
  buf : ∀ a < 64, Memory.read s.buf a = 0x00
  digest : ∀ j < 16, Memory.read s.digest j = 0x00
  fin : s.fin = false
  err : s.err = 0
  seq : s.seq = .idle

/-- One row of the decode table of 30_encoding.md section 4: the micro-operation, its round index, block word index,
shift amount and constant. -/
structure RoundRow where
  instr : Instr
  i : Fin 64
  g : Fin 16
  s : Nat
  k : Word

/-- The decode table of 30_encoding.md section 4, rounds 0 to 15. -/
def rowsF : List RoundRow :=
  [⟨.roundF0, 0, 0, 7, 0xD76AA478⟩,
   ⟨.roundF1, 1, 1, 12, 0xE8C7B756⟩,
   ⟨.roundF2, 2, 2, 17, 0x242070DB⟩,
   ⟨.roundF3, 3, 3, 22, 0xC1BDCEEE⟩,
   ⟨.roundF4, 4, 4, 7, 0xF57C0FAF⟩,
   ⟨.roundF5, 5, 5, 12, 0x4787C62A⟩,
   ⟨.roundF6, 6, 6, 17, 0xA8304613⟩,
   ⟨.roundF7, 7, 7, 22, 0xFD469501⟩,
   ⟨.roundF8, 8, 8, 7, 0x698098D8⟩,
   ⟨.roundF9, 9, 9, 12, 0x8B44F7AF⟩,
   ⟨.roundF10, 10, 10, 17, 0xFFFF5BB1⟩,
   ⟨.roundF11, 11, 11, 22, 0x895CD7BE⟩,
   ⟨.roundF12, 12, 12, 7, 0x6B901122⟩,
   ⟨.roundF13, 13, 13, 12, 0xFD987193⟩,
   ⟨.roundF14, 14, 14, 17, 0xA679438E⟩,
   ⟨.roundF15, 15, 15, 22, 0x49B40821⟩]

/-- The decode table of 30_encoding.md section 4, rounds 16 to 31. -/
def rowsG : List RoundRow :=
  [⟨.roundG16, 16, 1, 5, 0xF61E2562⟩,
   ⟨.roundG17, 17, 6, 9, 0xC040B340⟩,
   ⟨.roundG18, 18, 11, 14, 0x265E5A51⟩,
   ⟨.roundG19, 19, 0, 20, 0xE9B6C7AA⟩,
   ⟨.roundG20, 20, 5, 5, 0xD62F105D⟩,
   ⟨.roundG21, 21, 10, 9, 0x02441453⟩,
   ⟨.roundG22, 22, 15, 14, 0xD8A1E681⟩,
   ⟨.roundG23, 23, 4, 20, 0xE7D3FBC8⟩,
   ⟨.roundG24, 24, 9, 5, 0x21E1CDE6⟩,
   ⟨.roundG25, 25, 14, 9, 0xC33707D6⟩,
   ⟨.roundG26, 26, 3, 14, 0xF4D50D87⟩,
   ⟨.roundG27, 27, 8, 20, 0x455A14ED⟩,
   ⟨.roundG28, 28, 13, 5, 0xA9E3E905⟩,
   ⟨.roundG29, 29, 2, 9, 0xFCEFA3F8⟩,
   ⟨.roundG30, 30, 7, 14, 0x676F02D9⟩,
   ⟨.roundG31, 31, 12, 20, 0x8D2A4C8A⟩]

/-- The decode table of 30_encoding.md section 4, rounds 32 to 47. -/
def rowsH : List RoundRow :=
  [⟨.roundH32, 32, 5, 4, 0xFFFA3942⟩,
   ⟨.roundH33, 33, 8, 11, 0x8771F681⟩,
   ⟨.roundH34, 34, 11, 16, 0x6D9D6122⟩,
   ⟨.roundH35, 35, 14, 23, 0xFDE5380C⟩,
   ⟨.roundH36, 36, 1, 4, 0xA4BEEA44⟩,
   ⟨.roundH37, 37, 4, 11, 0x4BDECFA9⟩,
   ⟨.roundH38, 38, 7, 16, 0xF6BB4B60⟩,
   ⟨.roundH39, 39, 10, 23, 0xBEBFBC70⟩,
   ⟨.roundH40, 40, 13, 4, 0x289B7EC6⟩,
   ⟨.roundH41, 41, 0, 11, 0xEAA127FA⟩,
   ⟨.roundH42, 42, 3, 16, 0xD4EF3085⟩,
   ⟨.roundH43, 43, 6, 23, 0x04881D05⟩,
   ⟨.roundH44, 44, 9, 4, 0xD9D4D039⟩,
   ⟨.roundH45, 45, 12, 11, 0xE6DB99E5⟩,
   ⟨.roundH46, 46, 15, 16, 0x1FA27CF8⟩,
   ⟨.roundH47, 47, 2, 23, 0xC4AC5665⟩]

/-- The decode table of 30_encoding.md section 4, rounds 48 to 63. -/
def rowsI : List RoundRow :=
  [⟨.roundI48, 48, 0, 6, 0xF4292244⟩,
   ⟨.roundI49, 49, 7, 10, 0x432AFF97⟩,
   ⟨.roundI50, 50, 14, 15, 0xAB9423A7⟩,
   ⟨.roundI51, 51, 5, 21, 0xFC93A039⟩,
   ⟨.roundI52, 52, 12, 6, 0x655B59C3⟩,
   ⟨.roundI53, 53, 3, 10, 0x8F0CCC92⟩,
   ⟨.roundI54, 54, 10, 15, 0xFFEFF47D⟩,
   ⟨.roundI55, 55, 1, 21, 0x85845DD1⟩,
   ⟨.roundI56, 56, 8, 6, 0x6FA87E4F⟩,
   ⟨.roundI57, 57, 15, 10, 0xFE2CE6E0⟩,
   ⟨.roundI58, 58, 6, 15, 0xA3014314⟩,
   ⟨.roundI59, 59, 13, 21, 0x4E0811A1⟩,
   ⟨.roundI60, 60, 4, 6, 0xF7537E82⟩,
   ⟨.roundI61, 61, 11, 10, 0xBD3AF235⟩,
   ⟨.roundI62, 62, 2, 15, 0x2AD7D2BB⟩,
   ⟨.roundI63, 63, 9, 21, 0xEB86D391⟩]

/-- The state after a round: `(a, b, c, d) <- (d, b +32 rotl32(temp, S), b, c)` with `temp = f +32 a +32 K +32 X[g]`, and
`SEQ` at its next value; everything else unchanged (40_transform.md R110). -/
def afterRound (r : RoundRow) (f : Word) (next : Seq) (s : State) : State :=
  { s with
    work :=
      { a := s.work.d
        b := s.work.b + rotl32 (f + s.work.a + r.k + blockWord s.buf r.g) r.s
        c := s.work.b
        d := s.work.c }
    seq := next }

/-- `SEQ` after `k` micro-operations of a transform that starts at (`LOAD`, 0) (40_transform.md R119). -/
def seqPath (k : Nat) : Seq :=
  if k = 0 then .load else if k ≤ 64 then .round (Fin.ofNat 64 (k - 1)) else if k = 65 then .add else .idle

/-- The chaining registers `FINISH` leaves: one `Transform` where padding and length fit behind the pending bytes, else
two (42_finish.md R162, R163, R165). -/
def finishedChain (s : State) : Quad :=
  if s.buflen.toNat < 56 then
    transform s.chain (blockOfBytes
      (pendingBytes s ++ 0x80 :: List.replicate (55 - s.buflen.toNat) 0x00 ++ leBytes64 s.bitcnt))
  else
    transform
      (transform s.chain (blockOfBytes (pendingBytes s ++ 0x80 :: List.replicate (63 - s.buflen.toNat) 0x00)))
      (blockOfBytes (List.replicate 56 0x00 ++ leBytes64 s.bitcnt))

end Sys2Proof.Safety

open Sys2Proof Sys2Proof.Machine Sys2Proof.Safety

/-! ### Reset -/

/-- 70_reset_and_hazards.md R230: hardware reset, and the command `RESET` from every state, leave the tabulated values.
The working variables, which the rule calls unspecified, are not spoken of. -/
def Obligations.ResetStateHasTabulatedValues : Prop :=
  HasResetValues State.reset ∧ ∀ s, ∃ t, exec .reset s = .next t ∧ HasResetValues t

/-- 43_reset.md R180, R181: `RESET` executes in every state. Its frame: the working variables, which have no reset value,
and the model's own fields stay as they are (the model's choice, log 7). -/
def Obligations.ResetExecutesInEveryState : Prop :=
  ∀ s : State, ∃ t, exec .reset s = .next t ∧ t = { State.reset with work := s.work, cmds := s.cmds, draws := s.draws }

/-- 43_reset.md R182: after `RESET` the host observes of any later commands what it observes of them after hardware
reset, whatever was hashed before. -/
def Obligations.ResetErasesTheEarlierMessage : Prop :=
  ∀ (p : List Instr) (s : State), Program.wf p = true → Ready s →
    ∃ t u, runProgram (.reset :: p) s = .next t ∧ runProgram p State.reset = .next u ∧ observe t = observe u

/-! ### UPDB -/

/-- 41_update.md R140, R141 (`Absorb` of the byte of a `UPDB` while `FIN = 0`): the byte is stored at `BUF[BUFLEN]`, the counter
grows by 8, and either `BUFLEN` grows by one, or the byte completes the block, `Transform` of the full buffer is applied
at once and `BUFLEN` is 0. Everything else is unchanged, every other buffer byte included; of the working variables after
a transform nothing is said (log 6). -/
def Obligations.UpdbAbsorbsItsByte : Prop :=
  ∀ (d : Byte) (s : State), s.fin = false →
    ∃ t, exec (.updb d) s = .next t ∧
      Memory.read t.buf (absorbAddress s) = d ∧
      (∀ a, a ≠ absorbAddress s → Memory.read t.buf a = Memory.read s.buf a) ∧
      (s.buflen ≠ 63 →
        t = { s with buf := t.buf, bitcnt := s.bitcnt + 8, buflen := s.buflen + 1 }) ∧
      (s.buflen = 63 →
        t = { s with
              buf := t.buf
              bitcnt := s.bitcnt + 8
              buflen := 0
              chain := transform s.chain (bufferBlock t.buf)
              seq := .idle
              work := t.work
              draws := t.draws })

/-- 41_update.md R140, R142, for the byte of a `UPDB`: the low half counts modulo 2^32 and the high half takes the carry exactly when the low half was
`0xFFFFFFF8`. -/
def Obligations.UpdbCarriesIntoTheHighHalf : Prop :=
  ∀ (d : Byte) (s : State), s.fin = false → s.bitcnt.toNat % 8 = 0 →
    ∃ t, exec (.updb d) s = .next t ∧
      bitcntLo t.bitcnt = bitcntLo s.bitcnt + 8 ∧
      bitcntHi t.bitcnt = if bitcntLo s.bitcnt = 0xFFFFFFF8 then bitcntHi s.bitcnt + 1 else bitcntHi s.bitcnt

/-- 10_state.md R25: an addition to the counter as two halves, the carry of the low half into the high half; for the
8 bits of a byte the carry comes exactly from the low half `0xFFFFFFF8`. -/
def Obligations.CounterHalvesAgreeWithTheWhole : Prop :=
  ∀ (c : Count) (n : Word),
    bitcntLo (c + n.setWidth 64) = bitcntLo c + n ∧
    bitcntHi (c + n.setWidth 64) =
      bitcntHi c + (if 2 ^ 32 ≤ (bitcntLo c).toNat + n.toNat then 1 else 0) ∧
    (2 ^ 32 ≤ (bitcntLo c).toNat + n.toNat ↔ (bitcntLo c + n).toNat < n.toNat) ∧
    (c.toNat % 8 = 0 → (2 ^ 32 ≤ (bitcntLo c).toNat + 8 ↔ bitcntLo c = 0xFFFFFFF8))

/-- 41_update.md R143: the counter wraps modulo 2^64 with no fault and no flag. -/
def Obligations.CounterWrapsWithoutFault : Prop :=
  ∀ (d : Byte) (s : State), s.fin = false → s.bitcnt = 0xFFFFFFFFFFFFFFF8 →
    ∃ t, exec (.updb d) s = .next t ∧ t.bitcnt = 0 ∧ t.err = s.err ∧ t.fin = s.fin

/-- 41_update.md R147: after 63 bytes from reset no transform has run; the 64th runs it in the same step. -/
def Obligations.BlockCompletesWithItsLastByte : Prop :=
  ∀ (m : List Byte) (d : Byte), m.length = 63 →
    ∃ t u, runProgram (m.map .updb) State.reset = .next t ∧
      t.buflen = 63 ∧ t.bitcnt = 504 ∧ t.chain = State.reset.chain ∧
      exec (.updb d) t = .next u ∧
      u.buflen = 0 ∧ u.bitcnt = 512 ∧ u.chain = transform State.reset.chain (blockOfBytes (m ++ [d]))

/-- 41_update.md R145: a zero-length update issues no command, and its slice form changes nothing. -/
def Obligations.ZeroLengthUpdateIsNoOp : Prop :=
  Pseudo.expand (.update []) = [] ∧ ∀ s : State, updateSlice [] s = s

/-- 41_update.md R144: the `UPDB` commands of a slice do exactly what the block-wise `Update(m)` does, to every
register. -/
def Obligations.SliceUpdateEqualsItsByteCommands : Prop :=
  ∀ (m : List Byte) (s : State), Ready s → s.fin = false →
    runProgram (Pseudo.expand (.update m)) s = .next (updateSlice m s)

/-- 41_update.md R146: however a message is cut into slices, the block-wise updates leave the same state as one update
with the whole. -/
def Obligations.ChunkingDoesNotMatter : Prop :=
  ∀ (chunks : List (List Byte)) (s : State),
    chunks.foldl (fun u m => updateSlice m u) s = updateSlice chunks.flatten s

/-! ### FINISH -/

/-- 42_finish.md R160 to R166: `FINISH` while `FIN = 0` pads the pending bytes, appends the counter as it stood on entry,
applies one `Transform` where that fits in the block and two where it does not, and writes the digest. -/
def Obligations.FinishDigestsThePaddedTail : Prop :=
  ∀ s : State, s.fin = false →
    ∃ t, exec .finish s = .next t ∧
      t.chain = finishedChain s ∧ digestBytes t = quadBytes t.chain ∧ t.fin = true ∧ t.buflen = 0 ∧
      t.bitcnt = s.bitcnt + BitVec.ofNat 64 (8 * (padLength s.buflen + 8)) ∧
      (s.bitcnt.toNat % 8 = 0 → s.buflen.toNat = s.bitcnt.toNat / 8 % 64 → t.bitcnt.toNat % 512 = 0)

/-- The frame of `FINISH` (42_finish.md R160; 20_memory.md R51, R52): `ERR`, the sequencer's idleness and the waiting
commands are unchanged; the bytes it stores to `BUF` are those its `Absorb` steps address, and to `DIGEST` the sixteen. -/
def Obligations.FinishFrame : Prop :=
  ∀ s : State, s.fin = false →
    ∃ t, exec .finish s = .next t ∧ t.err = s.err ∧ t.cmds = s.cmds ∧ t.seq = .idle ∧
      (∀ a, (∀ k < (finishBytes s).length, a ≠ (absorbAddress s + k) % 64) →
        Memory.read t.buf a = Memory.read s.buf a) ∧
      (∀ a, 16 ≤ a → Memory.read t.digest a = Memory.read s.digest a)

/-- 42_finish.md R164: the digest is the four words the last transform left, each least significant byte first, in the
order `A`, `B`, `C`, `D`; `FINISH` does not change them afterwards. -/
def Obligations.DigestSerialisesTheChain : Prop :=
  ∀ s : State, s.fin = false →
    ∃ t, exec .finish s = .next t ∧ t.chain = (absorbAll (finishBytes s) s).chain ∧
      ∀ k < 4,
        Memory.read t.digest k = t.chain.a.extractLsb' (8 * k) 8 ∧
        Memory.read t.digest (4 + k) = t.chain.b.extractLsb' (8 * k) 8 ∧
        Memory.read t.digest (8 + k) = t.chain.c.extractLsb' (8 * k) 8 ∧
        Memory.read t.digest (12 + k) = t.chain.d.extractLsb' (8 * k) 8

/-- 42_finish.md R162: the padding bytes for every value of `BUFLEN`. -/
def Obligations.PaddingReachesFiftySix : Prop :=
  ∀ p : BitVec 6,
    padLength p = (if p.toNat < 56 then 56 - p.toNat else 120 - p.toNat) ∧
    1 ≤ padLength p ∧ padLength p ≤ 64 ∧ (p.toNat + padLength p) % 64 = 56 ∧
    (64 ≤ p.toNat + padLength p ↔ 56 ≤ p.toNat) ∧
    padding p = 0x80 :: List.replicate (if p.toNat < 56 then 55 - p.toNat else 119 - p.toNat) 0x00

/-- 20_memory.md R54: the length suffix is little-endian, so that in the last block `X[14]` is the low half of the
captured counter and `X[15]` the high half. -/
def Obligations.LengthFillsTheLastTwoWords : Prop :=
  ∀ (pre : List Byte) (len : Count), pre.length = 56 →
    blockOfBytes (pre ++ leBytes64 len) 14 = bitcntLo len ∧ blockOfBytes (pre ++ leBytes64 len) 15 = bitcntHi len

/-- 42_finish.md R167: `FINISH` straight after reset gives the digest of the empty message. -/
def Obligations.FinishWithoutUpdateIsLegal : Prop :=
  ∃ t, exec .finish State.reset = .next t ∧ t.fin = true ∧ t.err = 0 ∧
    digestBytes t =
      [0xd4, 0x1d, 0x8c, 0xd9, 0x8f, 0x00, 0xb2, 0x04, 0xe9, 0x80, 0x09, 0x98, 0xec, 0xf8, 0x42, 0x7e]

/-! ### Whole messages -/

/-- 42_finish.md R169, 44_oneshot.md R190: for every message and whatever state the engine was in between two commands,
`RESET`, its bytes and `FINISH` leave the digest `MD5(m)` with `FIN = 1` and `ERR = 0`. -/
def Obligations.DigestIsMd5OfTheMessage : Prop :=
  ∀ (m : List Byte) (s : State), Ready s →
    ∃ t, runProgram (.reset :: (Pseudo.expand (.update m) ++ [.finish])) s = .next t ∧
      digestBytes t = md5 m ∧ t.fin = true ∧ t.err = 0 ∧ Ready t

/-- 70_reset_and_hazards.md R234: straight after hardware reset no command need come before a message's first byte. -/
def Obligations.FirstMessageNeedsNoReset : Prop :=
  ∀ m : List Byte, ∃ t, runProgram (Pseudo.expand (.update m) ++ [.finish]) State.reset = .next t ∧
    digestBytes t = md5 m ∧ t.fin = true ∧ t.err = 0

/-- 44_oneshot.md R190 to R193: `HEXDIGEST m` never fails and returns the 32 hex characters of `MD5(m)`. -/
def Obligations.HexdigestRendersTheDigest : Prop :=
  ∀ (m : List Byte) (s : State), Ready s → hexdigest m s = some (hex (md5 m)) ∧ (hex (md5 m)).length = 32

/-- 44_oneshot.md R190: a text string is taken as its UTF-8 bytes, in `HEXDIGEST` of a text and in the quoted operands
of `HEXDIGEST` and `UPDATE` (30_encoding.md R83), whatever characters stand between the quotes; an ASCII character is one
byte, and no terminator is added. That UTF-8 is Lean's is presumed (log 15), and that a quoted string ends at the first
double quote is the model's choice (log 14). -/
def Obligations.TextMessagesAreTheirUtf8Bytes : Prop :=
  (∀ (t : List Char) (s : State), Ready s → hexdigestText t s = some (hex (md5 (textBytes t)))) ∧
  (∀ t : String, textBytes t.toList = t.toUTF8.data.toList.map UInt8.toBitVec) ∧
  (∀ t : List Char, (∀ c ∈ t, c.toNat < 128) → textBytes t = t.map fun c => BitVec.ofNat 8 c.toNat) ∧
  ∀ t : List Char, doubleQuote ∉ t →
    assembleLine ("HEXDIGEST ".toList ++ doubleQuote :: (t ++ [doubleQuote])) =
      .ok (.pseudo (.hexdigest (textBytes t))) ∧
    assembleLine ("UPDATE ".toList ++ doubleQuote :: (t ++ [doubleQuote])) = .ok (.pseudo (.update (textBytes t)))

/-- 44_oneshot.md R191: two lowercase digits per byte, first byte first, most significant nibble first. -/
def Obligations.HexPlacesTheNibbles : Prop :=
  ∀ bs : List Byte, (hex bs).length = 2 * bs.length ∧
    ∀ (j : Nat) (h : j < bs.length),
      (hex bs)[2 * j]? = "0123456789abcdef".toList[(bs[j].extractLsb' 4 4).toNat]? ∧
      (hex bs)[2 * j + 1]? = "0123456789abcdef".toList[(bs[j].extractLsb' 0 4).toNat]?

/-! ### Misuse faults -/

/-- 60_exceptions.md R205: the complete table. Each cause records its code if `ERR` is 0 and changes nothing else, and no
other instruction changes `ERR`, but for `RESET`, which clears it. -/
def Obligations.MisuseTableIsComplete : Prop :=
  ∀ s : State,
    (s.fin = true → exec .finish s = .next { s with err := if s.err = 0 then 1 else s.err }) ∧
    (s.fin = true → ∀ d, exec (.updb d) s = .next { s with err := if s.err = 0 then 2 else s.err }) ∧
    exec .reserved s = .next { s with err := if s.err = 0 then 3 else s.err } ∧
    (∀ t, exec .reset s = .next t → t.err = 0) ∧
    ∀ i t, exec i s = .next t → i ≠ .reset → i ≠ .reserved →
      (s.fin = true → i ≠ .finish ∧ ∀ d, i ≠ .updb d) → t.err = s.err

/-- 30_encoding.md R77, 60_exceptions.md R203: the reserved code raises `Misuse(3)` whatever `FIN` is. -/
def Obligations.ReservedCommandFaults : Prop :=
  ∀ s : State, exec .reserved s = .next { s with err := if s.err = 0 then 3 else s.err }

/-- 60_exceptions.md R202: `UPDB` on a finalized engine raises `Misuse(2)`; the byte is dropped. -/
def Obligations.UpdbAfterFinishFaults : Prop :=
  ∀ (d : Byte) (s : State), s.fin = true →
    exec (.updb d) s = .next { s with err := if s.err = 0 then 2 else s.err }

/-- 60_exceptions.md R201, 42_finish.md R168: a second `FINISH` raises `Misuse(1)`; nothing is padded or recomputed, and
while `FIN = 1` every command but `RESET` is such a fault. -/
def Obligations.FinalizedEngineRunsOnlyReset : Prop :=
  ∀ s : State, s.fin = true →
    exec .finish s = .next { s with err := if s.err = 0 then 1 else s.err } ∧
    ∀ i, i.issuable = true → i ≠ .reset →
      ∃ t, exec i s = .next t ∧ t = { s with err := t.err } ∧ t.err ≠ 0

/-- 10_state.md R32: `ERR` keeps the first code, only `RESET` clears it, and it gates nothing. -/
def Obligations.ErrIsStickyAndGatesNothing : Prop :=
  (∀ i s t, exec i s = .next t → i ≠ .reset → s.err ≠ 0 → t.err = s.err) ∧
  (∀ (i : Instr) (s t : State) (e : BitVec 2), exec i s = .next t →
    ∃ u, exec i { s with err := e } = .next u ∧ u = { t with err := u.err })

/-- 60_exceptions.md R210: the stopping form of the step faults, with the cause of R205, wherever the next command is a
`FINISH` or `UPDB` on a finalized engine or the reserved code; where it faults the step takes that misuse, which changes
`ERR` alone; and it is the step everywhere else. -/
def Obligations.GuardedStepFaultsExactlyOnMisuse : Prop :=
  ∀ s : State,
    (∀ w ws, s.seq = .idle → s.cmds = w :: ws →
      (s.fin = true → decode (.cmd w) = .ok .finish → guardedStep s = .fault (.misuse .doubleFinish)) ∧
      (s.fin = true → ∀ d, decode (.cmd w) = .ok (.updb d) → guardedStep s = .fault (.misuse .updateAfterFinish)) ∧
      (decode (.cmd w) = .ok .reserved → guardedStep s = .fault (.misuse .reservedCommand))) ∧
    (∀ m, guardedStep s = .fault (.misuse m) →
      step s = .next { s with cmds := s.cmds.tail, err := if s.err = 0 then misuseCode m else s.err }) ∧
    ((∀ m, guardedStep s ≠ .fault (.misuse m)) → guardedStep s = step s ∧ ∃ t, step s = .next t)

/-- 60_exceptions.md R210: the stopping form agrees with the machine on every fault-free run. -/
def Obligations.GuardedRunsAgreeWithTheMachine : Prop :=
  ∀ (k : Nat) (s t : State), Host.Core.run guardedCore k s = .next t → Host.Core.run core k s = .next t

/-! ### Flags and registers over all instructions -/

/-- 10_state.md R30: `FINISH` sets `FIN`, only `RESET` clears it, and nothing else writes it. -/
def Obligations.FinSetByFinishClearedByReset : Prop :=
  ∀ (i : Instr) (s t : State), exec i s = .next t →
    (i = .finish → t.fin = true) ∧ (i = .reset → t.fin = false) ∧
    (i ≠ .finish → i ≠ .reset → t.fin = s.fin)

/-- 10_state.md R29: `DIGEST` is written by `FINISH` while `FIN = 0` and by `RESET`, and by nothing else. -/
def Obligations.DigestWrittenOnlyByFinishAndReset : Prop :=
  ∀ (i : Instr) (s t : State), exec i s = .next t → i ≠ .reset → (i = .finish → s.fin = true) →
    t.digest = s.digest

/-- 70_reset_and_hazards.md R238: from `FINISH` on the digest stays through any commands but `RESET`. -/
def Obligations.DigestStaysUntilReset : Prop :=
  ∀ (p : List Instr) (s : State), Program.wf p = true → .reset ∉ p → Ready s → s.fin = true →
    ∃ t, runProgram p s = .next t ∧ digestBytes t = digestBytes s ∧ t.fin = true

/-- 10_state.md R22: `A`, `B`, `C`, `D` are written by reset and by `T.ADD`, which runs inside a command only where a byte
completes a block; no other instruction changes them. -/
def Obligations.ChainWrittenOnlyByResetAndAdd : Prop :=
  ∀ (i : Instr) (s t : State), exec i s = .next t → i ≠ .reset → i ≠ .tAdd → (i = .finish → s.fin = true) →
    (∀ d, i = .updb d → s.fin = true ∨ s.buflen ≠ 63) → t.chain = s.chain

/-- 10_state.md R38: the counter does not decrease across any instruction but `RESET`, as long as fewer than 2^64 bits
are counted. Bits are counted on an engine that is not finalized only: 8 by a byte, the padding's and the length's by
`FINISH`. -/
def Obligations.CounterIsMonotone : Prop :=
  ∀ (i : Instr) (s t : State), exec i s = .next t → i ≠ .reset →
    (∀ d, i = .updb d → s.fin = false → s.bitcnt.toNat + 8 < 2 ^ 64) →
    (i = .finish → s.fin = false → s.bitcnt.toNat + 8 * (padLength s.buflen + 8) < 2 ^ 64) →
    s.bitcnt.toNat ≤ t.bitcnt.toNat

/-- 20_memory.md R52: the host's 128-bit view of `DIGEST`. -/
def Obligations.HostSeesDigestBytes : Prop :=
  ∀ (s : State) (j k : Nat), j < 16 → k < 8 →
    (observe s).digest.getLsbD (8 * j + k) = (Memory.read s.digest j).getLsbD k

/-! ### The compression engine -/

/-- 40_transform.md R113: `T.LOAD`, and everything it leaves unchanged. -/
def Obligations.TLoadCopiesTheChain : Prop :=
  encode .tLoad = .seq 0x40 ∧ ∀ s : State, exec .tLoad s = .next { s with work := s.chain, seq := .round 0 }

/-- 40_transform.md R114: `ROUND.F.0` to `ROUND.F.15`, with the operands of the decode table. -/
def Obligations.RoundFMixesAndRotates : Prop :=
  ∀ r ∈ rowsF, encode r.instr = .seq (BitVec.ofNat 8 (0x80 + r.i.val)) ∧ ∀ s : State,
    exec r.instr s =
      .next (afterRound r ((s.work.b &&& s.work.c) ||| (~~~s.work.b &&& s.work.d)) (.round (r.i + 1)) s)

/-- 40_transform.md R115: `ROUND.G.16` to `ROUND.G.31`, with the operands of the decode table. -/
def Obligations.RoundGMixesAndRotates : Prop :=
  ∀ r ∈ rowsG, encode r.instr = .seq (BitVec.ofNat 8 (0x80 + r.i.val)) ∧ ∀ s : State,
    exec r.instr s =
      .next (afterRound r ((s.work.b &&& s.work.d) ||| (s.work.c &&& ~~~s.work.d)) (.round (r.i + 1)) s)

/-- 40_transform.md R116: `ROUND.H.32` to `ROUND.H.47`, with the operands of the decode table. -/
def Obligations.RoundHMixesAndRotates : Prop :=
  ∀ r ∈ rowsH, encode r.instr = .seq (BitVec.ofNat 8 (0x80 + r.i.val)) ∧ ∀ s : State,
    exec r.instr s = .next (afterRound r (s.work.b ^^^ s.work.c ^^^ s.work.d) (.round (r.i + 1)) s)

/-- 40_transform.md R117: `ROUND.I.48` to `ROUND.I.63`, with the operands of the decode table; round 63 alone leaves the
`ROUND` phase. -/
def Obligations.RoundIMixesAndRotates : Prop :=
  ∀ r ∈ rowsI, encode r.instr = .seq (BitVec.ofNat 8 (0x80 + r.i.val)) ∧ ∀ s : State,
    exec r.instr s =
      .next (afterRound r (s.work.c ^^^ (s.work.b ||| ~~~s.work.d)) (if r.i < 63 then .round (r.i + 1) else .add) s)

/-- 40_transform.md R118: `T.ADD`, each addition wrapping on its own; of the working variables, which exist no longer,
nothing is said (log 6). -/
def Obligations.TAddAddsIntoTheChain : Prop :=
  encode .tAdd = .seq 0xC0 ∧ ∀ s : State, ∃ t, exec .tAdd s = .next t ∧
    t = { s with
          chain :=
            { a := s.chain.a + s.work.a
              b := s.chain.b + s.work.b
              c := s.chain.c + s.work.c
              d := s.chain.d + s.work.d }
          seq := .idle
          work := t.work
          draws := t.draws }

/-- 40_transform.md R119: one transform is exactly 66 steps along the one path of `SEQ`, whatever the data. -/
def Obligations.SequencerTakesItsOnePath : Prop :=
  ∀ (s : State) (k : Nat), s.seq = .load → k ≤ 66 →
    ∃ t, Host.Core.run core k s = .next t ∧ t.seq = seqPath k

/-- 40_transform.md R120: the 66 micro-operations, stepped one by one, compute `Transform` of the chaining registers and
the buffer, and change nothing else that any rule reads. -/
def Obligations.MicroOperationsComputeTransform : Prop :=
  ∀ s : State, s.seq = .load →
    ∃ t, Host.Core.run core 66 s = .next t ∧
      t = { s with
            chain := transform s.chain (bufferBlock s.buf)
            seq := .idle
            work := t.work
            draws := t.draws }

/-- 40_transform.md R101: no micro-operation writes `BITCNT`, `BUFLEN`, `BUF`, `DIGEST`, `FIN` or `ERR`. -/
def Obligations.MicroOperationsTouchOnlyTheEngine : Prop :=
  ∀ (i : Instr) (s : State), i.format = .seq →
    ∃ t, exec i s = .next t ∧ t = { s with chain := t.chain, work := t.work, seq := t.seq, draws := t.draws }

/-- 40_transform.md R103 to R106: the mixing functions bit by bit. -/
def Obligations.MixingFunctionsBitByBit : Prop :=
  ∀ (x y z : Word) (k : Nat), k < 32 →
    (mixF x y z).getLsbD k = (if x.getLsbD k then y.getLsbD k else z.getLsbD k) ∧
    (mixG x y z).getLsbD k = (if z.getLsbD k then x.getLsbD k else y.getLsbD k) ∧
    (mixH x y z).getLsbD k = ((x.getLsbD k ^^ y.getLsbD k) ^^ z.getLsbD k) ∧
    (mixI x y z).getLsbD k = (y.getLsbD k ^^ (x.getLsbD k || !z.getLsbD k))

/-- 00_scope.md section 7: `rotl32` moves bit `i` to bit `(i + s) mod 32`. -/
def Obligations.RotationMovesEachBit : Prop :=
  ∀ (x : Word) (s k : Nat), 1 ≤ s → s ≤ 31 → k < 32 → (rotl32 x s).getLsbD ((k + s) % 32) = x.getLsbD k

/-- 40_transform.md R107 to R109: the operands of every round are those of the decode table, and within each stage every
block word is used exactly once. -/
def Obligations.RoundOperandsMatchTheTables : Prop :=
  (∀ r ∈ rowsF ++ rowsG ++ rowsH ++ rowsI,
    wordIndex r.i = r.g ∧ shiftAmount r.i = r.s ∧ roundConstant r.i = r.k ∧ roundInstr r.i = r.instr) ∧
  ∀ stage < 4, ∀ j : Fin 16, ∃ pos : Fin 16,
    wordIndex (Fin.ofNat 64 (16 * stage + pos.val)) = j ∧
    ∀ pos' : Fin 16, wordIndex (Fin.ofNat 64 (16 * stage + pos'.val)) = j → pos' = pos

/-- 20_memory.md R53: word `X[j]` has `BUF[4j]` as its bits 7:0 and `BUF[4j+3]` as its bits 31:24. -/
def Obligations.BlockWordsAreLittleEndian : Prop :=
  ∀ (buf : Memory) (j : Fin 16) (k b : Nat), k < 4 → b < 8 →
    (blockWord buf j).getLsbD (8 * k + b) = (Memory.read buf (4 * j.val + k)).getLsbD b

/-! ### Encoding -/

/-- 30_encoding.md R71, R74 (the tables of 95_test_vectors.md section 7): words written out and what they decode to. -/
def Obligations.TableWordsDecode : Prop :=
  decode (.cmd 0b0000000000) = .ok .reset ∧ decode (.cmd 0b0011111111) = .ok .reset ∧
  decode (.cmd 0b0101100001) = .ok (.updb 0x61) ∧ decode (.cmd 0b1000000000) = .ok .finish ∧
  decode (.cmd 0b1111111111) = .ok .reserved ∧ decode (.seq 0b01000000) = .ok .tLoad ∧
  decode (.seq 0b10001111) = .ok .roundF15 ∧ decode (.seq 0b10010011) = .ok .roundG19 ∧
  decode (.seq 0b10101001) = .ok .roundH41 ∧ decode (.seq 0b10111111) = .ok .roundI63 ∧
  decode (.seq 0b11000000) = .ok .tAdd ∧ decode (.seq 0b00000000) = .error .idle ∧
  decode (.seq 0b01000001) = .error .unreachableSeq

/-- 30_encoding.md R71 to R78: decoding an instruction's word gives it back, a word decodes to an instruction exactly when
it is that instruction's word up to the ignored bits, and every command word decodes to a command. -/
def Obligations.DecodeAndEncodeAgree : Prop :=
  (∀ i : Instr, decode (encode i) = .ok i) ∧
  (∀ (c : CodeWord) (i : Instr), decode c = .ok i ↔ canonicalWord c = encode i) ∧
  (∀ w : CmdWord, ∃ i, decode (.cmd w) = .ok i ∧ i.issuable = true)

/-- 30_encoding.md R72: the `data` bits of `RESET` and `FINISH` change neither the command nor its result. -/
def Obligations.IgnoredDataBitsChangeNothing : Prop :=
  ∀ (d : Byte) (s : State) (ws : List CmdWord), s.seq = .idle →
    step { s with cmds := cmdWord 0 d :: ws } = exec .reset { s with cmds := ws } ∧
    step { s with cmds := cmdWord 2 d :: ws } = exec .finish { s with cmds := ws } ∧
    step { s with cmds := cmdWord 1 d :: ws } = exec (.updb d) { s with cmds := ws }

/-- 30_encoding.md R80: a command's text assembles to the command. -/
def Obligations.CommandTextAssembles : Prop :=
  ∀ (i : Instr) (l : List Char), instrText i = some l → assembleLine l = .ok (.command i)

/-! ### The step -/

/-- A step runs the decoded instruction: with `SEQ` idle the oldest waiting command word, taken off the channel; in a
transform the micro-operation that `SEQ` selects (10_state.md R31); with no word waiting nothing changes
(60_exceptions.md R216). -/
def Obligations.StepRunsTheDecodedInstruction : Prop :=
  (∀ (s : State) (w : CmdWord) (ws : List CmdWord) (i : Instr), s.seq = .idle → s.cmds = w :: ws →
    decode (.cmd w) = .ok i → step s = exec i { s with cmds := ws }) ∧
  (∀ (s : State) (i : Instr), s.seq ≠ .idle → decode (.seq (seqRegisterWord s.seq)) = .ok i → step s = exec i s) ∧
  (∀ s : State, s.seq = .idle → s.cmds = [] → step s = .next s)

/-- 00_scope.md R11, 60_exceptions.md R200: no operation of the engine can fail; every step completes. This rests on two
readings of the model: a misuse is taken as the entry of R204, a next state, where R210 has a step return a fault (log 4);
and no hardware reset cuts a command short (log 12). -/
def Obligations.EveryStepCompletes : Prop :=
  ∀ s : State, ∃ t, step s = .next t

/-- 10_state.md R36, R37, R39: what holds at an observation point holds at the next. -/
def Obligations.ObservationInvariantKept : Prop :=
  ∀ s t : State, ObservationInv s → step s = .next t → ObservationInv t

/-- 10_state.md R37: it holds at reset. -/
def Obligations.ObservationInvariantAtReset : Prop := ObservationInv State.reset

/-- 20_memory.md R50, R57: both storage spaces stay in their canonical form and within their sizes over every step, from
inside a transform too. -/
def Obligations.StorageStaysInBounds : Prop :=
  ∀ s t : State, StorageOk s → step s = .next t → StorageOk t

/-- 10_state.md R23, R35: the working variables between commands cannot be observed. Two engines between commands that
differ in nothing else make the same observations of any commands. -/
def Obligations.WorkingVariablesAreUnobservable : Prop :=
  ∀ (k : Nat) (s s' : State), s.seq = .idle → SameButWork s s' →
    ∃ t t', Host.Core.run core k s = .next t ∧ Host.Core.run core k s' = .next t' ∧ SameButWork t t' ∧
      observe t = observe t'
end

