-- ==== Sys2Proof/Laws/Memory.lean ====
section
/-! SUPPORT. The laws of the memory primitives: a read after a write, the canonical form, and what two canonical memories
with equal bytes have in common. -/

namespace Sys2Proof.Machine

/-! ### Reading after writing -/

@[simp] theorem Memory.read_nil (x : Nat) : Memory.read [] x = blankByte := rfl

theorem Memory.read_cons (k : Nat) (v : Byte) (m : Memory) (x : Nat) :
    Memory.read ((k, v) :: m) x = if x = k then v else Memory.read m x := rfl

theorem Memory.read_erase (a : Nat) (m : Memory) (x : Nat) :
    Memory.read (Memory.erase a m) x = if x = a then blankByte else Memory.read m x := by
  induction m with
  | nil => simp [Memory.erase]
  | cons c m ih =>
    obtain ⟨k, v⟩ := c
    have h : Memory.erase a ((k, v) :: m) =
        if k = a then Memory.erase a m else (k, v) :: Memory.erase a m := by
      by_cases hk : k = a <;> simp [Memory.erase, hk]
    rw [h]
    by_cases hk : k = a
    · subst hk
      rw [if_pos rfl, ih, Memory.read_cons]
      by_cases hx : x = k <;> simp [hx]
    · rw [if_neg hk, Memory.read_cons, Memory.read_cons, ih]
      by_cases hx : x = a
      · subst hx; simp [Ne.symm hk]
      · simp [hx]

theorem Memory.read_insert (a : Nat) (v : Byte) (m : Memory) (x : Nat)
    (h : ∀ c ∈ m, c.1 ≠ a) :
    Memory.read (Memory.insert a v m) x = if x = a then v else Memory.read m x := by
  induction m with
  | nil => simp [Memory.insert, Memory.read_cons]
  | cons c m ih =>
    obtain ⟨k, w⟩ := c
    have hk : k ≠ a := h (k, w) (by simp)
    have ih := ih (fun c hc => h c (by simp [hc]))
    rw [Memory.insert]
    split
    · rw [Memory.read_cons]
    · rw [Memory.read_cons, Memory.read_cons, ih]
      by_cases hx : x = a
      · subst hx; simp [Ne.symm hk]
      · simp [hx]

/-- A read after a write: the written byte at its address, every other address as before. -/
theorem Memory.read_write (m : Memory) (a : Nat) (v : Byte) (x : Nat) :
    Memory.read (Memory.write m a v) x = if x = a then v else Memory.read m x := by
  rw [Memory.write]
  split
  · subst v; exact Memory.read_erase a m x
  · rw [Memory.read_insert, Memory.read_erase]
    · by_cases hx : x = a <;> simp [hx]
    · intro c hc
      simpa using (List.mem_filter.mp hc).2

@[simp] theorem Memory.read_write_same (m : Memory) (a : Nat) (v : Byte) :
    Memory.read (Memory.write m a v) a = v := by simp [Memory.read_write]

theorem Memory.read_write_other (m : Memory) (v : Byte) {a x : Nat} (h : x ≠ a) :
    Memory.read (Memory.write m a v) x = Memory.read m x := by simp [Memory.read_write, h]

/-- A read after writing bytes at rising addresses. -/
theorem Memory.read_writeBytes (m : Memory) (a : Nat) (bs : List Byte) (x : Nat) :
    Memory.read (Memory.writeBytes m a bs) x =
      if a ≤ x ∧ x < a + bs.length then bs.getD (x - a) 0 else Memory.read m x := by
  induction bs generalizing m a with
  | nil => simp [Memory.writeBytes]
  | cons b bs ih =>
    rw [Memory.writeBytes, ih, Memory.read_write]
    simp only [List.length_cons]
    by_cases hx : x = a
    · subst hx
      rw [if_neg (by omega), if_pos rfl, if_pos (by omega)]
      simp
    · by_cases hin : a + 1 ≤ x ∧ x < a + 1 + bs.length
      · rw [if_pos hin, if_pos (by omega)]
        obtain ⟨k, rfl⟩ : ∃ k, x = a + 1 + k := ⟨x - (a + 1), by omega⟩
        simp [show a + 1 + k - a = k + 1 by omega, show a + 1 + k - (a + 1) = k by omega]
      · rw [if_neg hin, if_neg hx, if_neg (by omega)]

theorem Memory.writeBytes_append (m : Memory) (a : Nat) (bs cs : List Byte) :
    Memory.writeBytes m a (bs ++ cs) = Memory.writeBytes (Memory.writeBytes m a bs) (a + bs.length) cs := by
  induction bs generalizing m a with
  | nil => rfl
  | cons b bs ih =>
    rw [List.cons_append, Memory.writeBytes, Memory.writeBytes, ih, List.length_cons]
    congr 1; omega

@[simp] theorem Memory.length_readBytes (m : Memory) (a n : Nat) : (Memory.readBytes m a n).length = n := by
  simp [Memory.readBytes]

@[simp] theorem Memory.getElem_readBytes (m : Memory) (a n k : Nat) (h : k < (Memory.readBytes m a n).length) :
    (Memory.readBytes m a n)[k] = Memory.read m (a + k) := by
  simp [Memory.readBytes]

/-- The bytes of two memories agree where their reads do. -/
theorem Memory.readBytes_congr {m m' : Memory} {a n : Nat}
    (h : ∀ x, a ≤ x → x < a + n → Memory.read m x = Memory.read m' x) :
    Memory.readBytes m a n = Memory.readBytes m' a n := by
  apply List.ext_getElem (by simp)
  intro k hk _
  simp only [Memory.getElem_readBytes]
  exact h _ (by omega) (by simp at hk; omega)

theorem Memory.readBytes_succ (m : Memory) (a n : Nat) :
    Memory.readBytes m a (n + 1) = Memory.readBytes m a n ++ [Memory.read m (a + n)] := by
  simp [Memory.readBytes, List.range_succ]

/-! ### The canonical form -/

theorem Memory.wfFrom_mono {size lo lo' : Nat} {m : Memory} (hlo : lo' ≤ lo)
    (h : Memory.wfFrom size lo m = true) : Memory.wfFrom size lo' m = true := by
  cases m with
  | nil => rfl
  | cons c m =>
    obtain ⟨k, v⟩ := c
    simp only [Memory.wfFrom, Bool.and_eq_true, decide_eq_true_eq] at h ⊢
    exact ⟨⟨⟨by omega, h.1.1.2⟩, h.1.2⟩, h.2⟩

theorem Memory.wfFrom_erase {size lo : Nat} {m : Memory} (a : Nat)
    (h : Memory.wfFrom size lo m = true) : Memory.wfFrom size lo (Memory.erase a m) = true := by
  induction m generalizing lo with
  | nil => rfl
  | cons c m ih =>
    obtain ⟨k, v⟩ := c
    simp only [Memory.wfFrom, Bool.and_eq_true, decide_eq_true_eq] at h
    have hm := ih h.2
    by_cases hk : k = a
    · have : Memory.erase a ((k, v) :: m) = Memory.erase a m := by simp [Memory.erase, hk]
      rw [this]
      exact Memory.wfFrom_mono (by omega) hm
    · have : Memory.erase a ((k, v) :: m) = (k, v) :: Memory.erase a m := by simp [Memory.erase, hk]
      rw [this]
      simp only [Memory.wfFrom, Bool.and_eq_true, decide_eq_true_eq]
      exact ⟨h.1, hm⟩

theorem Memory.wfFrom_insert {size lo a : Nat} {v : Byte} {m : Memory} (ha : a < size) (hlo : lo ≤ a)
    (hv : v ≠ blankByte) (hne : ∀ c ∈ m, c.1 ≠ a)
    (h : Memory.wfFrom size lo m = true) : Memory.wfFrom size lo (Memory.insert a v m) = true := by
  induction m generalizing lo with
  | nil => simp [Memory.insert, Memory.wfFrom, ha, hlo, hv]
  | cons c m ih =>
    obtain ⟨k, w⟩ := c
    have hk : k ≠ a := hne (k, w) (by simp)
    rw [Memory.insert]
    simp only [Memory.wfFrom, Bool.and_eq_true, decide_eq_true_eq] at h
    split
    · simp only [Memory.wfFrom, Bool.and_eq_true, decide_eq_true_eq]
      exact ⟨⟨⟨hlo, ha⟩, by simpa using hv⟩, ⟨⟨by omega, h.1.1.2⟩, h.1.2⟩, h.2⟩
    · simp only [Memory.wfFrom, Bool.and_eq_true, decide_eq_true_eq]
      exact ⟨h.1, ih (by omega) (fun c hc => hne c (by simp [hc])) h.2⟩

/-- A write inside the space keeps the canonical form. -/
theorem Memory.wf_write {size a : Nat} {m : Memory} (v : Byte) (ha : a < size) (h : Memory.wf size m = true) :
    Memory.wf size (Memory.write m a v) = true := by
  rw [Memory.write]
  split
  · exact Memory.wfFrom_erase a h
  · next hv =>
    refine Memory.wfFrom_insert ha (Nat.zero_le _) hv ?_ (Memory.wfFrom_erase a h)
    intro c hc
    simpa using (List.mem_filter.mp hc).2

/-- Writes inside the space keep the canonical form. -/
theorem Memory.wf_writeBytes {size a : Nat} {m : Memory} (bs : List Byte) (ha : a + bs.length ≤ size)
    (h : Memory.wf size m = true) : Memory.wf size (Memory.writeBytes m a bs) = true := by
  induction bs generalizing m a with
  | nil => exact h
  | cons b bs ih =>
    simp only [List.length_cons] at ha
    exact ih (by omega) (Memory.wf_write b (by omega) h)

@[simp] theorem Memory.wf_nil (size : Nat) : Memory.wf size [] = true := rfl

theorem Memory.read_below {size lo : Nat} {m : Memory} (h : Memory.wfFrom size lo m = true) {x : Nat}
    (hx : x < lo) : Memory.read m x = blankByte := by
  induction m generalizing lo with
  | nil => rfl
  | cons c m ih =>
    obtain ⟨k, v⟩ := c
    simp only [Memory.wfFrom, Bool.and_eq_true, decide_eq_true_eq] at h
    rw [Memory.read_cons, if_neg (by omega)]
    exact ih h.2 (by omega)

theorem Memory.ext_from {size lo : Nat} {m m' : Memory} (h : Memory.wfFrom size lo m = true)
    (h' : Memory.wfFrom size lo m' = true) (hr : ∀ x, Memory.read m x = Memory.read m' x) : m = m' := by
  induction m generalizing m' lo with
  | nil =>
    cases m' with
    | nil => rfl
    | cons c m' =>
      obtain ⟨k, v⟩ := c
      have := hr k
      simp only [Memory.wfFrom, Bool.and_eq_true, bne_iff_ne] at h'
      simp [Memory.read_cons] at this
      exact absurd this.symm h'.1.2
  | cons c m ih =>
    obtain ⟨k, v⟩ := c
    cases m' with
    | nil =>
      have := hr k
      simp only [Memory.wfFrom, Bool.and_eq_true, bne_iff_ne] at h
      simp [Memory.read_cons] at this
      exact absurd this h.1.2
    | cons c' m' =>
      obtain ⟨k', v'⟩ := c'
      simp only [Memory.wfFrom, Bool.and_eq_true, decide_eq_true_eq, bne_iff_ne] at h h'
      have hkk : k = k' := by
        rcases Nat.lt_trichotomy k k' with hlt | heq | hgt
        · have := hr k
          rw [Memory.read_cons, if_pos rfl, Memory.read_cons, if_neg (by omega),
            Memory.read_below h'.2 (by omega)] at this
          exact absurd this h.1.2
        · exact heq
        · have := hr k'
          rw [Memory.read_cons, if_neg (by omega), Memory.read_below h.2 (by omega),
            Memory.read_cons, if_pos rfl] at this
          exact absurd this.symm h'.1.2
      subst hkk
      have hv : v = v' := by simpa [Memory.read_cons] using hr k
      subst hv
      congr 1
      refine ih h.2 h'.2 (fun x => ?_)
      by_cases hx : x < k + 1
      · rw [Memory.read_below h.2 hx, Memory.read_below h'.2 hx]
      · simpa [Memory.read_cons, show x ≠ k by omega] using hr x

/-- Two canonical memories in which every address reads the same are equal. -/
theorem Memory.ext {size : Nat} {m m' : Memory} (h : Memory.wf size m = true) (h' : Memory.wf size m' = true)
    (hr : ∀ x, Memory.read m x = Memory.read m' x) : m = m' := Memory.ext_from h h' hr

/-! ### Words and the digest -/

@[simp] theorem length_leBytes32 (w : Word) : (leBytes32 w).length = 4 := rfl

@[simp] theorem length_leBytes64 (v : Count) : (leBytes64 v).length = 8 := rfl

@[simp] theorem length_quadBytes (q : Quad) : (quadBytes q).length = 16 := rfl

/-- `le32` lays its bytes side by side, the first one lowest. -/
theorem le32_eq_append (b0 b1 b2 b3 : Byte) : le32 b0 b1 b2 b3 = b3 ++ b2 ++ b1 ++ b0 := by
  apply BitVec.eq_of_toNat_eq
  have := b0.isLt; have := b1.isLt; have := b2.isLt; have := b3.isLt
  simp only [le32, BitVec.toNat_ofNat, BitVec.toNat_append]
  rw [← Nat.shiftLeft_add_eq_or_of_lt (by omega), ← Nat.shiftLeft_add_eq_or_of_lt (by omega),
    ← Nat.shiftLeft_add_eq_or_of_lt (by omega)]
  simp only [Nat.shiftLeft_eq]
  omega

/-- The four stores of `FINISH` are one store of the sixteen digest bytes. -/
theorem storeDigest_eq (m : Memory) (q : Quad) : storeDigest m q = Memory.writeBytes m 0 (quadBytes q) := by
  rw [quadBytes, List.append_assoc, List.append_assoc]
  rw [Memory.writeBytes_append, Memory.writeBytes_append, Memory.writeBytes_append]
  simp [storeDigest, storeWord]

theorem wf_storeDigest {m : Memory} (q : Quad) (h : Memory.wf 16 m = true) :
    Memory.wf 16 (storeDigest m q) = true := by
  rw [storeDigest_eq]
  exact Memory.wf_writeBytes _ (by simp) h

/-- After the store of the digest, `DIGEST[0..15]` are the sixteen bytes. -/
theorem readBytes_storeDigest (m : Memory) (q : Quad) :
    Memory.readBytes (storeDigest m q) 0 16 = quadBytes q := by
  rw [storeDigest_eq]
  apply List.ext_getElem (by simp)
  intro k hk hk'
  simp only [length_quadBytes] at hk'
  rw [Memory.getElem_readBytes, Memory.read_writeBytes, if_pos (by simp; omega)]
  rw [List.getD_eq_getElem?_getD, Nat.zero_add, Nat.sub_zero,
    List.getElem?_eq_getElem (show k < (quadBytes q).length from hk'),
    Option.getD_some]
  rfl

end Sys2Proof.Machine
end

