-- ==== Sys2Proof/Laws/State.lean ====
section
/-! SUPPORT. One lemma per field per state update, so that no later proof unfolds one. -/

namespace Sys2Proof.Machine

/-! ### `raiseMisuse` -/

@[simp] theorem raiseMisuse_chain (m : Misuse) (s : State) : (raiseMisuse m s).chain = s.chain := rfl
@[simp] theorem raiseMisuse_work (m : Misuse) (s : State) : (raiseMisuse m s).work = s.work := rfl
@[simp] theorem raiseMisuse_bitcnt (m : Misuse) (s : State) : (raiseMisuse m s).bitcnt = s.bitcnt := rfl
@[simp] theorem raiseMisuse_buf (m : Misuse) (s : State) : (raiseMisuse m s).buf = s.buf := rfl
@[simp] theorem raiseMisuse_buflen (m : Misuse) (s : State) : (raiseMisuse m s).buflen = s.buflen := rfl
@[simp] theorem raiseMisuse_digest (m : Misuse) (s : State) : (raiseMisuse m s).digest = s.digest := rfl
@[simp] theorem raiseMisuse_fin (m : Misuse) (s : State) : (raiseMisuse m s).fin = s.fin := rfl
@[simp] theorem raiseMisuse_err (m : Misuse) (s : State) : (raiseMisuse m s).err = stickyErr s.err m := rfl
@[simp] theorem raiseMisuse_seq (m : Misuse) (s : State) : (raiseMisuse m s).seq = s.seq := rfl
@[simp] theorem raiseMisuse_cmds (m : Misuse) (s : State) : (raiseMisuse m s).cmds = s.cmds := rfl
@[simp] theorem raiseMisuse_draws (m : Misuse) (s : State) : (raiseMisuse m s).draws = s.draws := rfl

/-! ### `storeByte` -/

@[simp] theorem storeByte_chain (d : Byte) (s : State) : (storeByte d s).chain = s.chain := rfl
@[simp] theorem storeByte_work (d : Byte) (s : State) : (storeByte d s).work = s.work := rfl
@[simp] theorem storeByte_bitcnt (d : Byte) (s : State) : (storeByte d s).bitcnt = addBits s.bitcnt 8 := rfl
@[simp] theorem storeByte_buf (d : Byte) (s : State) : (storeByte d s).buf = Memory.write s.buf (absorbAddress s) d := rfl
@[simp] theorem storeByte_buflen (d : Byte) (s : State) : (storeByte d s).buflen = s.buflen := rfl
@[simp] theorem storeByte_digest (d : Byte) (s : State) : (storeByte d s).digest = s.digest := rfl
@[simp] theorem storeByte_fin (d : Byte) (s : State) : (storeByte d s).fin = s.fin := rfl
@[simp] theorem storeByte_err (d : Byte) (s : State) : (storeByte d s).err = s.err := rfl
@[simp] theorem storeByte_seq (d : Byte) (s : State) : (storeByte d s).seq = s.seq := rfl
@[simp] theorem storeByte_cmds (d : Byte) (s : State) : (storeByte d s).cmds = s.cmds := rfl
@[simp] theorem storeByte_draws (d : Byte) (s : State) : (storeByte d s).draws = s.draws := rfl

/-! ### `loadOp` -/

@[simp] theorem loadOp_chain (s : State) : (loadOp s).chain = s.chain := rfl
@[simp] theorem loadOp_work (s : State) : (loadOp s).work = s.chain := rfl
@[simp] theorem loadOp_bitcnt (s : State) : (loadOp s).bitcnt = s.bitcnt := rfl
@[simp] theorem loadOp_buf (s : State) : (loadOp s).buf = s.buf := rfl
@[simp] theorem loadOp_buflen (s : State) : (loadOp s).buflen = s.buflen := rfl
@[simp] theorem loadOp_digest (s : State) : (loadOp s).digest = s.digest := rfl
@[simp] theorem loadOp_fin (s : State) : (loadOp s).fin = s.fin := rfl
@[simp] theorem loadOp_err (s : State) : (loadOp s).err = s.err := rfl
@[simp] theorem loadOp_seq (s : State) : (loadOp s).seq = .round 0 := rfl
@[simp] theorem loadOp_cmds (s : State) : (loadOp s).cmds = s.cmds := rfl
@[simp] theorem loadOp_draws (s : State) : (loadOp s).draws = s.draws := rfl

/-! ### `roundWith` -/

@[simp] theorem roundWith_chain (i : Fin 64) (f : Word) (g : Fin 16) (s : State) : (roundWith i f g s).chain = s.chain := rfl
@[simp] theorem roundWith_work (i : Fin 64) (f : Word) (g : Fin 16) (s : State) : (roundWith i f g s).work = roundQuad f (blockWord s.buf g) (roundConstant i) (shiftAmount i) s.work := rfl
@[simp] theorem roundWith_bitcnt (i : Fin 64) (f : Word) (g : Fin 16) (s : State) : (roundWith i f g s).bitcnt = s.bitcnt := rfl
@[simp] theorem roundWith_buf (i : Fin 64) (f : Word) (g : Fin 16) (s : State) : (roundWith i f g s).buf = s.buf := rfl
@[simp] theorem roundWith_buflen (i : Fin 64) (f : Word) (g : Fin 16) (s : State) : (roundWith i f g s).buflen = s.buflen := rfl
@[simp] theorem roundWith_digest (i : Fin 64) (f : Word) (g : Fin 16) (s : State) : (roundWith i f g s).digest = s.digest := rfl
@[simp] theorem roundWith_fin (i : Fin 64) (f : Word) (g : Fin 16) (s : State) : (roundWith i f g s).fin = s.fin := rfl
@[simp] theorem roundWith_err (i : Fin 64) (f : Word) (g : Fin 16) (s : State) : (roundWith i f g s).err = s.err := rfl
@[simp] theorem roundWith_seq (i : Fin 64) (f : Word) (g : Fin 16) (s : State) : (roundWith i f g s).seq = seqAfterRound i := rfl
@[simp] theorem roundWith_cmds (i : Fin 64) (f : Word) (g : Fin 16) (s : State) : (roundWith i f g s).cmds = s.cmds := rfl
@[simp] theorem roundWith_draws (i : Fin 64) (f : Word) (g : Fin 16) (s : State) : (roundWith i f g s).draws = s.draws := rfl

/-! ### `addOp` -/

@[simp] theorem addOp_chain (s : State) : (addOp s).chain = addQuads s.chain s.work := rfl
@[simp] theorem addOp_work (s : State) : (addOp s).work = unspecifiedQuad s.draws := rfl
@[simp] theorem addOp_bitcnt (s : State) : (addOp s).bitcnt = s.bitcnt := rfl
@[simp] theorem addOp_buf (s : State) : (addOp s).buf = s.buf := rfl
@[simp] theorem addOp_buflen (s : State) : (addOp s).buflen = s.buflen := rfl
@[simp] theorem addOp_digest (s : State) : (addOp s).digest = s.digest := rfl
@[simp] theorem addOp_fin (s : State) : (addOp s).fin = s.fin := rfl
@[simp] theorem addOp_err (s : State) : (addOp s).err = s.err := rfl
@[simp] theorem addOp_seq (s : State) : (addOp s).seq = .idle := rfl
@[simp] theorem addOp_cmds (s : State) : (addOp s).cmds = s.cmds := rfl
@[simp] theorem addOp_draws (s : State) : (addOp s).draws = s.draws + 4 := rfl

/-! ### `resetRegisters` -/

@[simp] theorem resetRegisters_chain (s : State) : (resetRegisters s).chain = initVector := rfl
@[simp] theorem resetRegisters_work (s : State) : (resetRegisters s).work = s.work := rfl
@[simp] theorem resetRegisters_bitcnt (s : State) : (resetRegisters s).bitcnt = 0 := rfl
@[simp] theorem resetRegisters_buf (s : State) : (resetRegisters s).buf = [] := rfl
@[simp] theorem resetRegisters_buflen (s : State) : (resetRegisters s).buflen = 0 := rfl
@[simp] theorem resetRegisters_digest (s : State) : (resetRegisters s).digest = [] := rfl
@[simp] theorem resetRegisters_fin (s : State) : (resetRegisters s).fin = false := rfl
@[simp] theorem resetRegisters_err (s : State) : (resetRegisters s).err = 0 := rfl
@[simp] theorem resetRegisters_seq (s : State) : (resetRegisters s).seq = .idle := rfl
@[simp] theorem resetRegisters_cmds (s : State) : (resetRegisters s).cmds = s.cmds := rfl
@[simp] theorem resetRegisters_draws (s : State) : (resetRegisters s).draws = s.draws := rfl

end Sys2Proof.Machine
end

