-- ==== Sys2Proof/Laws/Engine.lean ====
section
/-! SUPPORT. What the compression engine does: each round by its index, the whole run of the sequencer as `Transform`, and
`Absorb` in its two cases. Later proofs cite these and never unfold the sequencer. -/

namespace Sys2Proof.Machine

/-! ### Rounds -/

/-- The four `ROUND` rules are one rule in the round index (40_transform.md R100, R110). -/
theorem roundOp_eq (i : Fin 64) (s : State) :
    roundOp i s = { s with work := roundFn (bufferBlock s.buf) s.work i, seq := seqAfterRound i } := by
  unfold roundOp roundF roundG roundH roundI roundWith roundFn mix wordIndex bufferBlock
  split
  · rfl
  · split
    · rfl
    · split <;> rfl

theorem microStep_idle {s : State} (h : s.seq = .idle) : microStep s = s := by simp [microStep, h]

theorem microStep_load {s : State} (h : s.seq = .load) : microStep s = loadOp s := by simp [microStep, h]

theorem microStep_round {s : State} {i : Fin 64} (h : s.seq = .round i) : microStep s = roundOp i s := by
  simp [microStep, h]

theorem microStep_add {s : State} (h : s.seq = .add) : microStep s = addOp s := by simp [microStep, h]

/-! ### The run of the sequencer -/

theorem runSequencer_add (m n : Nat) (s : State) :
    runSequencer (m + n) s = runSequencer n (runSequencer m s) := by
  induction m generalizing s with
  | zero => simp [runSequencer]
  | succ m ih => rw [Nat.succ_add, runSequencer, ih, runSequencer]

/-- The rounds from `k` to 63, run from (`ROUND`, `k`), leave the phase `ADD`. -/
theorem runSequencer_rounds (n k : Nat) (hk : k < 64) (hn : k + n = 64) (s : State)
    (hs : s.seq = .round ⟨k, hk⟩) :
    runSequencer n s =
      { s with
        work := ((List.finRange 64).drop k).foldl (roundFn (bufferBlock s.buf)) s.work
        seq := .add } := by
  induction n generalizing k s with
  | zero => omega
  | succ n ih =>
    rw [runSequencer, microStep_round hs, roundOp_eq,
      List.drop_eq_getElem_cons (by simpa using hk), List.foldl_cons]
    have hget : (List.finRange 64)[k]'(by simpa using hk) = ⟨k, hk⟩ := by simp
    rw [hget]
    by_cases hlast : k = 63
    · subst hlast
      obtain rfl : n = 0 := by omega
      simp [runSequencer, seqAfterRound, List.drop_eq_nil_of_le]
    · have hk' : k + 1 < 64 := by omega
      rw [ih (k + 1) hk' (by omega) _ (by simp [seqAfterRound, show k < 63 by omega])]

/-- The whole run of the sequencer (40_transform.md R112, R119): the chaining registers get the `Transform` of the buffer,
the sequencer is idle again, the working variables are free, and nothing else changes. -/
theorem runTransform_eq (s : State) :
    runTransform s =
      { s with
        chain := transform s.chain (bufferBlock s.buf)
        work := unspecifiedQuad s.draws
        seq := .idle
        draws := s.draws + 4 } := by
  have h66 : transformSteps = 1 + (64 + 1) := rfl
  rw [runTransform, h66, runSequencer_add, runSequencer_add]
  have hload : runSequencer 1 { s with seq := .load } = { s with work := s.chain, seq := .round 0 } := rfl
  rw [hload, runSequencer_rounds 64 0 (by omega) rfl _ rfl]
  rfl

/-! ### `Absorb` -/

/-- `Absorb` of a byte that does not complete a block. -/
theorem absorb_room (d : Byte) {s : State} (h : s.buflen ≠ 63) :
    absorb d s =
      { s with
        buf := Memory.write s.buf s.buflen.toNat d
        bitcnt := s.bitcnt + 8
        buflen := s.buflen + 1 } := by
  rw [absorb, if_neg h]; rfl

/-- `Absorb` of the byte that completes a block. -/
theorem absorb_full (d : Byte) {s : State} (h : s.buflen = 63) :
    absorb d s =
      { s with
        buf := Memory.write s.buf 63 d
        bitcnt := s.bitcnt + 8
        buflen := 0
        chain := transform s.chain (bufferBlock (Memory.write s.buf 63 d))
        work := unspecifiedQuad s.draws
        seq := .idle
        draws := s.draws + 4 } := by
  have ha : absorbAddress s = 63 := by simp [absorbAddress, h]
  rw [absorb, if_pos h, runTransform_eq, storeByte, ha]
  rfl

/-- Everything `Absorb` does to the fields that do not depend on the case. -/
theorem absorb_fields (d : Byte) (s : State) :
    (absorb d s).buf = Memory.write s.buf s.buflen.toNat d ∧ (absorb d s).bitcnt = s.bitcnt + 8 ∧
      (absorb d s).buflen = s.buflen + 1 ∧ (absorb d s).digest = s.digest ∧ (absorb d s).fin = s.fin ∧
      (absorb d s).err = s.err ∧ (absorb d s).cmds = s.cmds := by
  by_cases h : s.buflen = 63
  · rw [absorb_full d h]
    simp [h]
  · rw [absorb_room d h]
    simp

@[simp] theorem absorb_buf (d : Byte) (s : State) :
    (absorb d s).buf = Memory.write s.buf s.buflen.toNat d := (absorb_fields d s).1
@[simp] theorem absorb_bitcnt (d : Byte) (s : State) : (absorb d s).bitcnt = s.bitcnt + 8 :=
  (absorb_fields d s).2.1
@[simp] theorem absorb_buflen (d : Byte) (s : State) : (absorb d s).buflen = s.buflen + 1 :=
  (absorb_fields d s).2.2.1
@[simp] theorem absorb_digest (d : Byte) (s : State) : (absorb d s).digest = s.digest :=
  (absorb_fields d s).2.2.2.1
@[simp] theorem absorb_fin (d : Byte) (s : State) : (absorb d s).fin = s.fin :=
  (absorb_fields d s).2.2.2.2.1
@[simp] theorem absorb_err (d : Byte) (s : State) : (absorb d s).err = s.err :=
  (absorb_fields d s).2.2.2.2.2.1
@[simp] theorem absorb_cmds (d : Byte) (s : State) : (absorb d s).cmds = s.cmds :=
  (absorb_fields d s).2.2.2.2.2.2

/-- A running sequencer is not left behind by `Absorb`: idle stays idle. -/
theorem absorb_seq_idle (d : Byte) {s : State} (h : s.seq = .idle) : (absorb d s).seq = .idle := by
  by_cases hb : s.buflen = 63
  · rw [absorb_full d hb]
  · rw [absorb_room d hb]; exact h

/-! ### `Absorb` of several bytes -/

@[simp] theorem absorbAll_nil (s : State) : absorbAll [] s = s := rfl

@[simp] theorem absorbAll_cons (d : Byte) (ds : List Byte) (s : State) :
    absorbAll (d :: ds) s = absorbAll ds (absorb d s) := rfl

theorem absorbAll_append (ds es : List Byte) (s : State) :
    absorbAll (ds ++ es) s = absorbAll es (absorbAll ds s) := by
  induction ds generalizing s with
  | nil => rfl
  | cons d ds ih => exact ih (absorb d s)

@[simp] theorem absorbAll_bitcnt (ds : List Byte) (s : State) :
    (absorbAll ds s).bitcnt = s.bitcnt + BitVec.ofNat 64 (8 * ds.length) := by
  induction ds generalizing s with
  | nil => simp
  | cons d ds ih =>
    rw [absorbAll_cons, ih, absorb_bitcnt, List.length_cons]
    have h8 : BitVec.toNat (8 : Count) = 8 := rfl
    apply BitVec.eq_of_toNat_eq
    simp only [BitVec.toNat_add, BitVec.toNat_ofNat]
    omega

@[simp] theorem absorbAll_buflen (ds : List Byte) (s : State) :
    (absorbAll ds s).buflen = s.buflen + BitVec.ofNat 6 ds.length := by
  induction ds generalizing s with
  | nil => simp
  | cons d ds ih =>
    rw [absorbAll_cons, ih, absorb_buflen, List.length_cons]
    have h1 : BitVec.toNat (1 : BitVec 6) = 1 := rfl
    apply BitVec.eq_of_toNat_eq
    simp only [BitVec.toNat_add, BitVec.toNat_ofNat]
    omega

@[simp] theorem absorbAll_digest (ds : List Byte) (s : State) : (absorbAll ds s).digest = s.digest := by
  induction ds generalizing s with
  | nil => rfl
  | cons d ds ih => rw [absorbAll_cons, ih, absorb_digest]

@[simp] theorem absorbAll_fin (ds : List Byte) (s : State) : (absorbAll ds s).fin = s.fin := by
  induction ds generalizing s with
  | nil => rfl
  | cons d ds ih => rw [absorbAll_cons, ih, absorb_fin]

@[simp] theorem absorbAll_err (ds : List Byte) (s : State) : (absorbAll ds s).err = s.err := by
  induction ds generalizing s with
  | nil => rfl
  | cons d ds ih => rw [absorbAll_cons, ih, absorb_err]

@[simp] theorem absorbAll_cmds (ds : List Byte) (s : State) : (absorbAll ds s).cmds = s.cmds := by
  induction ds generalizing s with
  | nil => rfl
  | cons d ds ih => rw [absorbAll_cons, ih, absorb_cmds]

theorem absorbAll_seq_idle (ds : List Byte) {s : State} (h : s.seq = .idle) :
    (absorbAll ds s).seq = .idle := by
  induction ds generalizing s with
  | nil => exact h
  | cons d ds ih => exact ih (absorb_seq_idle d h)

/-- `Absorb` keeps the buffer canonical. -/
theorem absorbAll_buf_wf (ds : List Byte) {s : State} (h : Memory.wf 64 s.buf = true) :
    Memory.wf 64 (absorbAll ds s).buf = true := by
  induction ds generalizing s with
  | nil => exact h
  | cons d ds ih =>
    refine ih ?_
    rw [absorb_buf]
    exact Memory.wf_write d s.buflen.isLt h

/-! ### `FINISH` -/

theorem length_padding (p : BitVec 6) : (padding p).length = padLength p := by
  have := p.isLt
  have hle : padLength p ≤ 64 := by unfold padLength; split <;> omega
  rw [padding, List.length_take, padTemplate, List.length_cons, List.length_replicate]
  omega

theorem length_finishBytes (s : State) : (finishBytes s).length = padLength s.buflen + 8 := by
  simp [finishBytes, length_padding]


/-- What `FINISH` leaves, field by field: `FIN` set, no byte pending, the padding and length bytes counted, and the digest
of the chaining registers (42_finish.md R160, R166). -/
theorem finishMessage_fields (s : State) :
    (finishMessage s).fin = true ∧ (finishMessage s).err = s.err ∧ (finishMessage s).cmds = s.cmds ∧
      (finishMessage s).chain = (absorbAll (finishBytes s) s).chain ∧
      (finishMessage s).buf = (absorbAll (finishBytes s) s).buf ∧
      (finishMessage s).digest = storeDigest s.digest (finishMessage s).chain ∧
      (finishMessage s).buflen = 0 ∧
      (finishMessage s).bitcnt = s.bitcnt + BitVec.ofNat 64 (8 * (padLength s.buflen + 8)) := by
  refine ⟨rfl, by simp [finishMessage], by simp [finishMessage], rfl, rfl, by simp [finishMessage], ?_, ?_⟩
  · have hb := s.buflen.isLt
    simp only [finishMessage, absorbAll_buflen, length_finishBytes]
    apply BitVec.eq_of_toNat_eq
    have h0 : BitVec.toNat (0 : BitVec 6) = 0 := rfl
    simp only [BitVec.toNat_add, BitVec.toNat_ofNat, h0, padLength]
    split <;> omega
  · simp [finishMessage, length_finishBytes]

theorem finishMessage_seq_idle {s : State} (h : s.seq = .idle) : (finishMessage s).seq = .idle :=
  absorbAll_seq_idle (finishBytes s) h

end Sys2Proof.Machine
end

