-- ==== Sys2Proof/Laws/Step.lean ====
section
/-! SUPPORT. What a step can do, said once: the instruction each `SEQ` value selects, the shape of `exec` on each kind of
instruction, and the cases of a step. -/

namespace Sys2Proof.Machine

/-! ### Decoding the words the machine fetches -/

/-- The word of round `i` selects round `i` (30_encoding.md R74). -/
theorem decode_roundWord (i : Fin 64) : decode (.seq (seqWord 2 (BitVec.ofFin i))) = .ok (roundInstr i) := by
  revert i; decide

theorem encode_roundInstr (i : Fin 64) : encode (roundInstr i) = .seq (seqWord 2 (BitVec.ofFin i)) := by
  revert i; decide

/-- Every round micro-operation is the round of its index. -/
theorem exec_roundInstr (i : Fin 64) (s : State) : exec (roundInstr i) s = .next (roundOp i s) := by
  fin_cases i <;> rfl

/-! ### `exec` on the commands -/

theorem exec_reset (s : State) : exec .reset s = .next (resetRegisters s) := rfl

theorem exec_updb_open (d : Byte) {s : State} (h : s.fin = false) : exec (.updb d) s = .next (absorb d s) := by
  simp [exec, execUpdb, h]

theorem exec_updb_finalized (d : Byte) {s : State} (h : s.fin = true) :
    exec (.updb d) s = .next (raiseMisuse .updateAfterFinish s) := by
  simp [exec, execUpdb, h]

theorem exec_finish_open {s : State} (h : s.fin = false) : exec .finish s = .next (finishMessage s) := by
  simp [exec, execFinish, h]

theorem exec_finish_finalized {s : State} (h : s.fin = true) :
    exec .finish s = .next (raiseMisuse .doubleFinish s) := by
  simp [exec, execFinish, h]

theorem exec_reserved (s : State) : exec .reserved s = .next (raiseMisuse .reservedCommand s) := rfl

theorem exec_tLoad (s : State) : exec .tLoad s = .next (loadOp s) := rfl

theorem exec_tAdd (s : State) : exec .tAdd s = .next (addOp s) := rfl

/-! ### Kinds of instruction -/

/-- A micro-operation is `T.LOAD`, a round, or `T.ADD`. -/
theorem micro_cases {i : Instr} (h : i.format = .seq) :
    i = .tLoad ∨ (∃ k, i = roundInstr k) ∨ i = .tAdd := by
  cases i <;> first
    | exact .inl rfl
    | exact .inr (.inr rfl)
    | (refine .inr (.inl ?_); decide)
    | (exfalso; simp [Instr.format] at h)

theorem roundInstr_format (k : Fin 64) : (roundInstr k).format = .seq := by
  revert k; decide

/-- A command is one of the four (30_encoding.md R71). -/
theorem command_cases {i : Instr} (h : i.format = .cmd) :
    i = .reset ∨ (∃ d, i = .updb d) ∨ i = .finish ∨ i = .reserved := by
  cases i <;> first
    | exact .inl rfl
    | exact .inr (.inl ⟨_, rfl⟩)
    | exact .inr (.inr (.inl rfl))
    | exact .inr (.inr (.inr rfl))
    | (exfalso; simp [Instr.format] at h)

/-- What an instruction does to a state, in every case. -/
theorem exec_cases {i : Instr} {s t : State} (h : exec i s = .next t) :
    (i = .reset ∧ t = resetRegisters s) ∨
    (∃ d, i = .updb d ∧ s.fin = true ∧ t = raiseMisuse .updateAfterFinish s) ∨
    (∃ d, i = .updb d ∧ s.fin = false ∧ t = absorb d s) ∨
    (i = .finish ∧ s.fin = true ∧ t = raiseMisuse .doubleFinish s) ∨
    (i = .finish ∧ s.fin = false ∧ t = finishMessage s) ∨
    (i = .reserved ∧ t = raiseMisuse .reservedCommand s) ∨
    (i = .tLoad ∧ t = loadOp s) ∨
    (∃ k, i = roundInstr k ∧ t = roundOp k s) ∨
    (i = .tAdd ∧ t = addOp s) := by
  have key : ∀ {u : State}, exec i s = .next u → t = u := by
    intro u hu
    rw [hu] at h
    injection h with h'
    exact h'.symm
  cases hf : i.format with
  | cmd =>
    obtain rfl | ⟨d, rfl⟩ | rfl | rfl := command_cases hf
    · exact .inl ⟨rfl, key (exec_reset s)⟩
    · cases hfin : s.fin with
      | true => exact .inr (.inl ⟨d, rfl, rfl, key (exec_updb_finalized d hfin)⟩)
      | false => exact .inr (.inr (.inl ⟨d, rfl, rfl, key (exec_updb_open d hfin)⟩))
    · cases hfin : s.fin with
      | true => exact .inr (.inr (.inr (.inl ⟨rfl, rfl, key (exec_finish_finalized hfin)⟩)))
      | false => exact .inr (.inr (.inr (.inr (.inl ⟨rfl, rfl, key (exec_finish_open hfin)⟩))))
    · exact .inr (.inr (.inr (.inr (.inr (.inl ⟨rfl, key (exec_reserved s)⟩)))))
  | seq =>
    obtain rfl | ⟨k, rfl⟩ | rfl := micro_cases hf
    · exact .inr (.inr (.inr (.inr (.inr (.inr (.inl ⟨rfl, key (exec_tLoad s)⟩))))))
    · exact .inr (.inr (.inr (.inr (.inr (.inr (.inr (.inl ⟨k, rfl, key (exec_roundInstr k s)⟩)))))))
    · exact .inr (.inr (.inr (.inr (.inr (.inr (.inr (.inr ⟨rfl, key (exec_tAdd s)⟩)))))))

/-! ### The step -/

theorem step_noCommand {s : State} (hs : s.seq = .idle) (hc : s.cmds = []) : step s = .next s := by
  simp [step, fetch, hs, fetchCommand, hc]

theorem step_command {s : State} {w : CmdWord} {ws : List CmdWord} (hs : s.seq = .idle) (hc : s.cmds = w :: ws) :
    step s = exec (decodeCmd w) { s with cmds := ws } := by
  simp [step, fetch, hs, fetchCommand, hc, decode]

/-- While a transform runs, a step is the micro-operation that `SEQ` selects. -/
theorem step_micro {s : State} (h : s.seq ≠ .idle) : step s = .next (microStep s) := by
  cases hs : s.seq with
  | idle => exact absurd hs h
  | load =>
    have : decode (.seq (seqRegisterWord .load)) = .ok .tLoad := by decide
    simp [step, fetch, hs, this, exec_tLoad, microStep]
  | round i =>
    have : decode (.seq (seqRegisterWord (.round i))) = .ok (roundInstr i) := decode_roundWord i
    simp [step, fetch, hs, this, exec_roundInstr, microStep]
  | add =>
    have : decode (.seq (seqRegisterWord .add)) = .ok .tAdd := by decide
    simp [step, fetch, hs, this, exec_tAdd, microStep]

/-- What a step can do: nothing, where the engine is idle and no word waits, or one instruction's meaning, on the same
state but for the waiting words; between commands that instruction is a command. -/
theorem step_cases (s : State) :
    (s.seq = .idle ∧ s.cmds = [] ∧ step s = .next s) ∨
      ∃ i u, step s = exec i u ∧ (∃ c, u = { s with cmds := c }) ∧ (s.seq = .idle → i.format = .cmd) := by
  by_cases hs : s.seq = .idle
  · cases hc : s.cmds with
    | nil => exact .inl ⟨hs, rfl, step_noCommand hs hc⟩
    | cons w ws => exact .inr ⟨_, _, step_command hs hc, ⟨_, rfl⟩, fun _ => by clear hc; revert w; decide⟩
  · right
    cases h : s.seq with
    | idle => exact absurd h hs
    | load =>
      exact ⟨.tLoad, s, by rw [step_micro hs, microStep_load h]; rfl, ⟨s.cmds, by cases s; simp_all⟩,
        fun h' => by simp at h'⟩
    | round i =>
      exact ⟨roundInstr i, s, by rw [step_micro hs, microStep_round h, exec_roundInstr],
        ⟨s.cmds, by cases s; simp_all⟩, fun h' => by simp at h'⟩
    | add =>
      exact ⟨.tAdd, s, by rw [step_micro hs, microStep_add h]; rfl, ⟨s.cmds, by cases s; simp_all⟩,
        fun h' => by simp at h'⟩

end Sys2Proof.Machine
end

