-- ==== Sys2Proof/Laws/Message.lean ====
section
/-! SUPPORT. The update path seen from the message: what `Absorb` does to the chaining registers and the pending bytes, and
what a program of commands does to a state. -/

namespace Sys2Proof.Machine

open Sys2Proof.Safety

/-! ### Blocks -/

/-- The block a buffer holds is the block of its 64 bytes. -/
theorem bufferBlock_eq (buf : Memory) : bufferBlock buf = blockOfBytes (Memory.readBytes buf 0 64) := by
  funext j
  have hj := j.isLt
  have h : ∀ k, k < 64 → (Memory.readBytes buf 0 64).getD k 0 = Memory.read buf k := by
    intro k hk
    rw [List.getD_eq_getElem?_getD, List.getElem?_eq_getElem (by simpa using hk), Option.getD_some,
      Memory.getElem_readBytes, Nat.zero_add]
  simp only [bufferBlock, blockWord, blockOfBytes]
  rw [h _ (by omega), h _ (by omega), h _ (by omega), h _ (by omega)]

/-- A block depends on its first 64 bytes only. -/
theorem blockOfBytes_append (bs cs : List Byte) (h : bs.length = 64) :
    blockOfBytes (bs ++ cs) = blockOfBytes bs := by
  funext j
  have hj := j.isLt
  have hg : ∀ k, k < 64 → (bs ++ cs).getD k 0 = bs.getD k 0 := by
    intro k hk
    rw [List.getD_eq_getElem?_getD, List.getD_eq_getElem?_getD, List.getElem?_append_left (by omega)]
  simp only [blockOfBytes]
  rw [hg _ (by omega), hg _ (by omega), hg _ (by omega), hg _ (by omega)]

/-! ### Pending bytes -/

@[simp] theorem length_pendingBytes (s : State) : (pendingBytes s).length = s.buflen.toNat := by
  simp [pendingBytes]

theorem pendingBytes_eq_nil {s : State} (h : s.buflen = 0) : pendingBytes s = [] := by
  simp [pendingBytes, h, Memory.readBytes]

theorem toNat_ne_63 {p : BitVec 6} (h : p ≠ 63) : p.toNat < 63 := by
  have h1 := p.isLt
  have h2 : p.toNat ≠ 63 := fun h' => h (BitVec.eq_of_toNat_eq (by simpa using h'))
  omega

/-- A byte with room joins the pending bytes. -/
theorem absorb_room_view (d : Byte) {s : State} (h : s.buflen ≠ 63) :
    (absorb d s).chain = s.chain ∧ pendingBytes (absorb d s) = pendingBytes s ++ [d] := by
  have hlt := toNat_ne_63 h
  rw [absorb_room d h]
  refine ⟨rfl, ?_⟩
  have hb : (s.buflen + 1).toNat = s.buflen.toNat + 1 := by
    have h1 : BitVec.toNat (1 : BitVec 6) = 1 := rfl
    rw [BitVec.toNat_add, h1]
    omega
  simp only [pendingBytes, hb]
  rw [Memory.readBytes_succ, Nat.zero_add, Memory.read_write_same]
  congr 1
  exact Memory.readBytes_congr (fun x _ hx => Memory.read_write_other _ _ (by omega))

/-- The byte that completes a block has the pending bytes and itself transformed; nothing is pending then. -/
theorem absorb_full_view (d : Byte) {s : State} (h : s.buflen = 63) :
    (absorb d s).chain = transform s.chain (blockOfBytes (pendingBytes s ++ [d])) ∧
      pendingBytes (absorb d s) = [] := by
  rw [absorb_full d h]
  refine ⟨?_, pendingBytes_eq_nil rfl⟩
  have h63 : s.buflen.toNat = 63 := by rw [h]; rfl
  simp only [bufferBlock_eq, pendingBytes, h63]
  rw [Memory.readBytes_succ, Nat.zero_add, Memory.read_write_same]
  congr 3
  exact Memory.readBytes_congr (fun x _ hx => Memory.read_write_other _ _ (by omega))

/-- What `Absorb` of any bytes does to the chaining registers and the pending bytes: whole blocks of the pending and the
new bytes are folded in, the tail is pending. -/
theorem absorbAll_view (ds : List Byte) (s : State) :
    (absorbAll ds s).chain =
        foldBlocks ((pendingBytes s ++ ds).length / 64) s.chain (pendingBytes s ++ ds) ∧
      pendingBytes (absorbAll ds s) =
        (pendingBytes s ++ ds).drop (64 * ((pendingBytes s ++ ds).length / 64)) := by
  induction ds generalizing s with
  | nil =>
    have hlt := s.buflen.isLt
    have h0 : (pendingBytes s ++ []).length / 64 = 0 := by simp; omega
    rw [h0]
    simp [foldBlocks]
  | cons d ds ih =>
    rw [absorbAll_cons, (ih _).1, (ih _).2]
    have happ : pendingBytes s ++ d :: ds = (pendingBytes s ++ [d]) ++ ds := by simp
    rw [happ]
    by_cases h : s.buflen = 63
    · obtain ⟨hc, hp⟩ := absorb_full_view d h
      have h63 : s.buflen.toNat = 63 := by rw [h]; rfl
      have hlen : (pendingBytes s ++ [d]).length = 64 := by simp [h63]
      have hdiv : ((pendingBytes s ++ [d]) ++ ds).length / 64 = ds.length / 64 + 1 := by
        rw [List.length_append, hlen]; omega
      rw [hc, hp, hdiv, foldBlocks, blockOfBytes_append _ _ hlen, List.drop_left' hlen, List.nil_append]
      refine ⟨rfl, ?_⟩
      rw [show 64 * (ds.length / 64 + 1) = 64 + 64 * (ds.length / 64) by omega, ← List.drop_drop,
        List.drop_left' hlen]
    · obtain ⟨hc, hp⟩ := absorb_room_view d h
      rw [hc, hp]
      exact ⟨rfl, rfl⟩

/-! ### Several bytes at once -/

/-- Bytes that do not fill the buffer are stored one behind the other and counted. -/
theorem absorbAll_room (ds : List Byte) (s : State) (h : s.buflen.toNat + ds.length < 64) :
    absorbAll ds s = { s with
      buf := Memory.writeBytes s.buf s.buflen.toNat ds
      bitcnt := s.bitcnt + BitVec.ofNat 64 (8 * ds.length)
      buflen := s.buflen + BitVec.ofNat 6 ds.length } := by
  induction ds generalizing s with
  | nil => simp [Memory.writeBytes]
  | cons d ds ih =>
    simp only [List.length_cons] at h
    have hne : s.buflen ≠ 63 := by
      intro h'; have : s.buflen.toNat = 63 := by rw [h']; rfl
      omega
    have e1 : BitVec.toNat (1 : BitVec 6) = 1 := rfl
    have e8 : BitVec.toNat (8 : Count) = 8 := rfl
    have hs : (s.buflen + 1).toNat = s.buflen.toNat + 1 := by rw [BitVec.toNat_add, e1]; omega
    rw [absorbAll_cons, absorb_room d hne, ih _ (by simp only [hs]; omega)]
    simp only [hs, Memory.writeBytes, List.length_cons]
    congr 1
    · apply BitVec.eq_of_toNat_eq
      simp only [BitVec.toNat_add, BitVec.toNat_ofNat, e8]; omega
    · apply BitVec.eq_of_toNat_eq
      simp only [BitVec.toNat_add, BitVec.toNat_ofNat, e1]; omega

/-- Bytes that fill the buffer exactly are stored and counted, and the full buffer is transformed. -/
theorem absorbAll_fill (ds : List Byte) (s : State) (h : s.buflen.toNat + ds.length = 64) :
    absorbAll ds s = { runTransform { s with
      buf := Memory.writeBytes s.buf s.buflen.toNat ds
      bitcnt := s.bitcnt + BitVec.ofNat 64 (8 * ds.length) } with buflen := 0 } := by
  have hb := s.buflen.isLt
  obtain ⟨es, d, rfl⟩ : ∃ es d, ds = es ++ [d] := by
    refine ⟨ds.dropLast, ds.getLast (by intro h'; simp [h'] at h; omega), (List.dropLast_append_getLast _).symm⟩
  simp only [List.length_append, List.length_singleton] at h
  rw [absorbAll_append, absorbAll_room es s (by omega), absorbAll_cons, absorbAll_nil]
  have h63 : s.buflen + BitVec.ofNat 6 es.length = 63 := by
    apply BitVec.eq_of_toNat_eq
    have : BitVec.toNat (63 : BitVec 6) = 63 := rfl
    simp only [BitVec.toNat_add, BitVec.toNat_ofNat, this]; omega
  have e8 : BitVec.toNat (8 : Count) = 8 := rfl
  rw [absorb_full d (by exact h63), runTransform_eq]
  have hw : Memory.writeBytes s.buf s.buflen.toNat (es ++ [d]) =
      Memory.write (Memory.writeBytes s.buf s.buflen.toNat es) 63 d := by
    rw [Memory.writeBytes_append]
    simp only [Memory.writeBytes]
    congr 1; omega
  simp only [hw]
  congr 1
  apply BitVec.eq_of_toNat_eq
  simp only [BitVec.toNat_add, BitVec.toNat_ofNat, e8, List.length_append, List.length_singleton]; omega

/-- `Absorb` of several bytes writes no buffer byte but those it addresses. -/
theorem absorbAll_buf_frame (ds : List Byte) (s : State) (a : Nat)
    (h : ∀ k < ds.length, a ≠ (absorbAddress s + k) % 64) :
    Memory.read (absorbAll ds s).buf a = Memory.read s.buf a := by
  induction ds generalizing s with
  | nil => rfl
  | cons d ds ih =>
    have hb := s.buflen.isLt
    rw [absorbAll_cons, ih]
    · rw [absorb_buf]
      apply Memory.read_write_other
      have := h 0 (by simp)
      simp only [absorbAddress] at this; omega
    · intro k hk
      have := h (k + 1) (by simp; omega)
      have e1 : BitVec.toNat (1 : BitVec 6) = 1 := rfl
      simp only [absorbAddress] at *
      rw [absorb_buflen, BitVec.toNat_add, e1]; omega

/-! ### Programs -/

theorem commandWord_of_issuable {i : Instr} (h : i.issuable = true) :
    ∃ w, commandWord i = some w ∧ decodeCmd w = i := by
  have hf : i.format = .cmd := by simpa [Instr.issuable] using h
  obtain rfl | ⟨d, rfl⟩ | rfl | rfl := command_cases hf
  · exact ⟨_, rfl, by decide⟩
  · exact ⟨_, rfl, by revert d; decide⟩
  · exact ⟨_, rfl, by decide⟩
  · exact ⟨_, rfl, by decide⟩

/-- A run whose first step answers a next state goes on from it. -/
theorem run_next {s t : State} (k : Nat) (h : step s = .next t) :
    Host.Core.run Sys2Proof.core (k + 1) s = Host.Core.run Sys2Proof.core k t := by
  have h' : Sys2Proof.core.step s = .next t := h
  simp only [Host.Core.run, h']

/-- The first step of a program is the meaning of its first command, with the other words still waiting. -/
theorem step_issue_cons {i : Instr} (p : List Instr) {s : State} (hi : i.issuable = true) (hs : s.seq = .idle)
    (hc : s.cmds = []) : step (issue (i :: p) s) = exec i (issue p s) := by
  obtain ⟨w, hw, hd⟩ := commandWord_of_issuable hi
  have hstep := step_command (s := issue (i :: p) s) (w := w) (ws := p.filterMap commandWord) hs
    (by simp [issue, hc, hw])
  rw [hstep, hd]
  simp [issue, hc]

/-- A program runs its first command, then the rest: `exec` takes the waiting words along unread. -/
theorem runProgram_cons {i : Instr} (p : List Instr) {s t : State} (hi : i.issuable = true) (hs : s.seq = .idle)
    (hc : s.cmds = []) (ht : exec i (issue p s) = .next (issue p t)) :
    runProgram (i :: p) s = runProgram p t := by
  rw [runProgram, List.length_cons, run_next _ ((step_issue_cons p hi hs hc).trans ht)]
  rfl

/-! ### The waiting words change no command's effect -/

theorem absorb_issue (d : Byte) (p : List Instr) (s : State) : absorb d (issue p s) = issue p (absorb d s) := by
  by_cases h : s.buflen = 63
  · rw [absorb_full d h, absorb_full (s := issue p s) d h]; rfl
  · rw [absorb_room d h, absorb_room (s := issue p s) d h]; rfl

theorem absorbAll_issue (ds : List Byte) (p : List Instr) (s : State) :
    absorbAll ds (issue p s) = issue p (absorbAll ds s) := by
  induction ds generalizing s with
  | nil => rfl
  | cons d ds ih => rw [absorbAll_cons, absorb_issue, ih, absorbAll_cons]

theorem finishMessage_issue (p : List Instr) (s : State) :
    finishMessage (issue p s) = issue p (finishMessage s) := by
  have h : finishBytes (issue p s) = finishBytes s := rfl
  simp only [finishMessage, h, absorbAll_issue]
  rfl

/-- A program that starts with a slice's bytes absorbs them and goes on. -/
theorem runProgram_updates (m : List Byte) (p : List Instr) {s : State} (hr : Ready s) (hf : s.fin = false) :
    runProgram (m.map .updb ++ p) s = runProgram p (absorbAll m s) := by
  induction m generalizing s with
  | nil => rfl
  | cons d m ih =>
    have ht : exec (.updb d) (issue (m.map .updb ++ p) s) = .next (issue (m.map .updb ++ p) (absorb d s)) := by
      rw [exec_updb_open d (by exact hf), absorb_issue]
    rw [List.map_cons, List.cons_append, runProgram_cons _ rfl hr.1 hr.2 ht]
    exact ih ⟨absorb_seq_idle d hr.1, by simpa using hr.2⟩ (by simpa using hf)

@[simp] theorem issue_nil (s : State) : issue [] s = s := by
  simp only [issue, List.filterMap_nil, List.append_nil]

@[simp] theorem runProgram_nil (s : State) : runProgram [] s = .next s := by
  rw [runProgram, issue_nil]; rfl

/-- A program of one `FINISH` on an engine that is not finalized. -/
theorem runProgram_finish {s : State} (hr : Ready s) (hf : s.fin = false) :
    runProgram [.finish] s = .next (finishMessage s) := by
  have ht : exec .finish (issue [] s) = .next (issue [] (finishMessage s)) := by
    rw [exec_finish_open (by exact hf), finishMessage_issue]
  rw [runProgram_cons [] rfl hr.1 hr.2 ht, runProgram_nil]

/-- A program that starts with `RESET` goes on from the reset registers. -/
theorem runProgram_reset (p : List Instr) {s : State} (hr : Ready s) :
    runProgram (.reset :: p) s = runProgram p (resetRegisters s) :=
  runProgram_cons p rfl hr.1 hr.2 rfl

end Sys2Proof.Machine
end

