-- ==== Sys2Proof/Laws/PerInstr.lean ====
section
/-! SUPPORT. Per-instruction facts about the instructions as syntax: the family `FormatWord` of LAWS.json. -/

namespace Sys2Proof.Laws.FormatWord

/-- An instruction's word is of its format; the host has a word for it exactly where it can issue it; and what the assembler
can write, the host can issue (30_encoding.md R70, R73, R80). -/
def Statement (i : Instr) : Prop :=
  (encode i).format = i.format ∧ (commandWord i).isSome = i.issuable ∧ (i.hasSyntax = true → i.issuable = true)

theorem reset : Statement .reset := ⟨rfl, rfl, fun _ => rfl⟩
theorem updb (d : Byte) : Statement (.updb d) := ⟨rfl, rfl, fun _ => rfl⟩
theorem finish : Statement .finish := ⟨rfl, rfl, fun _ => rfl⟩
theorem reserved : Statement .reserved := ⟨rfl, rfl, fun _ => rfl⟩
theorem tLoad : Statement .tLoad := ⟨rfl, rfl, fun h => h⟩
theorem roundF0 : Statement .roundF0 := ⟨rfl, rfl, fun h => h⟩
theorem roundF1 : Statement .roundF1 := ⟨rfl, rfl, fun h => h⟩
theorem roundF2 : Statement .roundF2 := ⟨rfl, rfl, fun h => h⟩
theorem roundF3 : Statement .roundF3 := ⟨rfl, rfl, fun h => h⟩
theorem roundF4 : Statement .roundF4 := ⟨rfl, rfl, fun h => h⟩
theorem roundF5 : Statement .roundF5 := ⟨rfl, rfl, fun h => h⟩
theorem roundF6 : Statement .roundF6 := ⟨rfl, rfl, fun h => h⟩
theorem roundF7 : Statement .roundF7 := ⟨rfl, rfl, fun h => h⟩
theorem roundF8 : Statement .roundF8 := ⟨rfl, rfl, fun h => h⟩
theorem roundF9 : Statement .roundF9 := ⟨rfl, rfl, fun h => h⟩
theorem roundF10 : Statement .roundF10 := ⟨rfl, rfl, fun h => h⟩
theorem roundF11 : Statement .roundF11 := ⟨rfl, rfl, fun h => h⟩
theorem roundF12 : Statement .roundF12 := ⟨rfl, rfl, fun h => h⟩
theorem roundF13 : Statement .roundF13 := ⟨rfl, rfl, fun h => h⟩
theorem roundF14 : Statement .roundF14 := ⟨rfl, rfl, fun h => h⟩
theorem roundF15 : Statement .roundF15 := ⟨rfl, rfl, fun h => h⟩
theorem roundG16 : Statement .roundG16 := ⟨rfl, rfl, fun h => h⟩
theorem roundG17 : Statement .roundG17 := ⟨rfl, rfl, fun h => h⟩
theorem roundG18 : Statement .roundG18 := ⟨rfl, rfl, fun h => h⟩
theorem roundG19 : Statement .roundG19 := ⟨rfl, rfl, fun h => h⟩
theorem roundG20 : Statement .roundG20 := ⟨rfl, rfl, fun h => h⟩
theorem roundG21 : Statement .roundG21 := ⟨rfl, rfl, fun h => h⟩
theorem roundG22 : Statement .roundG22 := ⟨rfl, rfl, fun h => h⟩
theorem roundG23 : Statement .roundG23 := ⟨rfl, rfl, fun h => h⟩
theorem roundG24 : Statement .roundG24 := ⟨rfl, rfl, fun h => h⟩
theorem roundG25 : Statement .roundG25 := ⟨rfl, rfl, fun h => h⟩
theorem roundG26 : Statement .roundG26 := ⟨rfl, rfl, fun h => h⟩
theorem roundG27 : Statement .roundG27 := ⟨rfl, rfl, fun h => h⟩
theorem roundG28 : Statement .roundG28 := ⟨rfl, rfl, fun h => h⟩
theorem roundG29 : Statement .roundG29 := ⟨rfl, rfl, fun h => h⟩
theorem roundG30 : Statement .roundG30 := ⟨rfl, rfl, fun h => h⟩
theorem roundG31 : Statement .roundG31 := ⟨rfl, rfl, fun h => h⟩
theorem roundH32 : Statement .roundH32 := ⟨rfl, rfl, fun h => h⟩
theorem roundH33 : Statement .roundH33 := ⟨rfl, rfl, fun h => h⟩
theorem roundH34 : Statement .roundH34 := ⟨rfl, rfl, fun h => h⟩
theorem roundH35 : Statement .roundH35 := ⟨rfl, rfl, fun h => h⟩
theorem roundH36 : Statement .roundH36 := ⟨rfl, rfl, fun h => h⟩
theorem roundH37 : Statement .roundH37 := ⟨rfl, rfl, fun h => h⟩
theorem roundH38 : Statement .roundH38 := ⟨rfl, rfl, fun h => h⟩
theorem roundH39 : Statement .roundH39 := ⟨rfl, rfl, fun h => h⟩
theorem roundH40 : Statement .roundH40 := ⟨rfl, rfl, fun h => h⟩
theorem roundH41 : Statement .roundH41 := ⟨rfl, rfl, fun h => h⟩
theorem roundH42 : Statement .roundH42 := ⟨rfl, rfl, fun h => h⟩
theorem roundH43 : Statement .roundH43 := ⟨rfl, rfl, fun h => h⟩
theorem roundH44 : Statement .roundH44 := ⟨rfl, rfl, fun h => h⟩
theorem roundH45 : Statement .roundH45 := ⟨rfl, rfl, fun h => h⟩
theorem roundH46 : Statement .roundH46 := ⟨rfl, rfl, fun h => h⟩
theorem roundH47 : Statement .roundH47 := ⟨rfl, rfl, fun h => h⟩
theorem roundI48 : Statement .roundI48 := ⟨rfl, rfl, fun h => h⟩
theorem roundI49 : Statement .roundI49 := ⟨rfl, rfl, fun h => h⟩
theorem roundI50 : Statement .roundI50 := ⟨rfl, rfl, fun h => h⟩
theorem roundI51 : Statement .roundI51 := ⟨rfl, rfl, fun h => h⟩
theorem roundI52 : Statement .roundI52 := ⟨rfl, rfl, fun h => h⟩
theorem roundI53 : Statement .roundI53 := ⟨rfl, rfl, fun h => h⟩
theorem roundI54 : Statement .roundI54 := ⟨rfl, rfl, fun h => h⟩
theorem roundI55 : Statement .roundI55 := ⟨rfl, rfl, fun h => h⟩
theorem roundI56 : Statement .roundI56 := ⟨rfl, rfl, fun h => h⟩
theorem roundI57 : Statement .roundI57 := ⟨rfl, rfl, fun h => h⟩
theorem roundI58 : Statement .roundI58 := ⟨rfl, rfl, fun h => h⟩
theorem roundI59 : Statement .roundI59 := ⟨rfl, rfl, fun h => h⟩
theorem roundI60 : Statement .roundI60 := ⟨rfl, rfl, fun h => h⟩
theorem roundI61 : Statement .roundI61 := ⟨rfl, rfl, fun h => h⟩
theorem roundI62 : Statement .roundI62 := ⟨rfl, rfl, fun h => h⟩
theorem roundI63 : Statement .roundI63 := ⟨rfl, rfl, fun h => h⟩
theorem tAdd : Statement .tAdd := ⟨rfl, rfl, fun h => h⟩

end Sys2Proof.Laws.FormatWord
end

