-- ==== Sys2Proof/Laws/Text.lean ====
section
/-! SUPPORT. Texts as bytes: what a character and a quoted string stand for. -/

namespace Sys2Proof.Machine

@[simp] theorem textBytes_nil : textBytes [] = [] := rfl

@[simp] theorem textBytes_cons (c : Char) (t : List Char) : textBytes (c :: t) = utf8Bytes c ++ textBytes t := rfl

/-- An ASCII character is one byte, its own number. -/
theorem utf8Bytes_ascii {c : Char} (h : c.toNat < 128) : utf8Bytes c = [charByte c] := by
  have h' : c.val.toNat ≤ 127 := Nat.le_of_lt_succ h
  rw [utf8Bytes, String.utf8EncodeChar, if_pos h']
  rfl

/-- A quoted string is read up to its first double quote, whatever else stands in it. -/
theorem stringBytes_quoted {t : List Char} (rest : List Char) (h : doubleQuote ∉ t) :
    stringBytes (t ++ doubleQuote :: rest) = some (textBytes t, rest) := by
  induction t with
  | nil => simp [stringBytes]
  | cons c t ih =>
    rw [List.mem_cons, not_or] at h
    rw [List.cons_append, stringBytes, if_neg (Ne.symm h.1), ih h.2, textBytes_cons]

end Sys2Proof.Machine
end

