-- ==== Sys2Proof/Tests/Slice0.lean ====
section
/-! SUPPORT. The model's own tests. Every expected value is printed in the spec: 30_encoding.md, 95_test_vectors.md and
96_test_vectors_traces.md; each test names its place. The last part holds a witness for the hypotheses of every
statement that has some. -/

namespace Sys2Proof.Tests

open Sys2Proof.Machine Sys2Proof.Safety

/-! ### Helpers -/

/-- The state a step answers, if it answers one. -/
def nextOf (o : Host.Outcome State Fault Refusal) : Option State :=
  match o with
  | .next s => some s
  | .fault _ => none
  | .refused _ => none

/-- A field of the state a step answers. -/
def after {α : Type} (f : State → α) (o : Host.Outcome State Fault Refusal) : Option α := (nextOf o).map f

/-- The engine with the given message bytes pending, from reset. -/
def pendingState (bs : List Byte) : State :=
  { State.reset with
    buf := Memory.writeBytes [] 0 bs
    buflen := BitVec.ofNat 6 bs.length
    bitcnt := BitVec.ofNat 64 (8 * bs.length) }

/-- The engine finalized after the empty message, reached by hand: 95_test_vectors.md section 6.3, row 1. -/
def finalState : State :=
  { State.reset with
    chain := ⟨0xD98C1DD4, 0x04B2008F, 0x980980E9, 0x7E42F8EC⟩
    bitcnt := 0x200
    fin := true
    digest :=
      [(0, 0xd4), (1, 0x1d), (2, 0x8c), (3, 0xd9), (4, 0x8f), (6, 0xb2), (7, 0x04), (8, 0xe9), (9, 0x80), (10, 0x09),
       (11, 0x98), (12, 0xec), (13, 0xf8), (14, 0x42), (15, 0x7e)] }

/-- The block of "abc" in the buffer, the transform at the given point (96_test_vectors_traces.md section 1). -/
def abcState (q : Quad) (p : Seq) : State :=
  { State.reset with buf := [(0, 0x61), (1, 0x62), (2, 0x63), (3, 0x80), (56, 0x18)], work := q, seq := p }

/-! ### Well-formedness: the ill-formed terms the checks refuse -/

theorem test_wf_command_program : Program.wf [.reset, .updb 0x61, .reserved, .finish] = true := by decide
theorem test_wf_refuses_tLoad : Program.wf [.reset, .tLoad] = false := by decide
theorem test_wf_refuses_round : Program.wf [.roundH41, .finish] = false := by decide
theorem test_hasSyntax_commands : Program.hasSyntax [.reset, .updb 0x61, .finish] = true := by decide
theorem test_hasSyntax_refuses_reserved : Program.hasSyntax [.updb 0x61, .reserved] = false := by decide
theorem test_hasSyntax_refuses_tAdd : Program.hasSyntax [.tAdd] = false := by decide

/-! ### Decoding (95_test_vectors.md section 7; 30_encoding.md sections 2 to 4) -/

theorem test_decode_reset : decode (.cmd 0b0000000000) = .ok .reset ∧ decode (.cmd 0b0011111111) = .ok .reset := by
  decide
theorem test_decode_updb :
    decode (.cmd 0b0100000000) = .ok (.updb 0x00) ∧ decode (.cmd 0b0101100001) = .ok (.updb 0x61) ∧
      decode (.cmd 0b0110000000) = .ok (.updb 0x80) ∧ decode (.cmd 0b0111111111) = .ok (.updb 0xFF) := by decide
theorem test_decode_finish : decode (.cmd 0b1000000000) = .ok .finish ∧ decode (.cmd 0b1011111111) = .ok .finish := by
  decide
theorem test_decode_reserved :
    decode (.cmd 0b1100000000) = .ok .reserved ∧ decode (.cmd 0b1111111111) = .ok .reserved := by decide
theorem test_decode_load_and_add : decode (.seq 0b01000000) = .ok .tLoad ∧ decode (.seq 0b11000000) = .ok .tAdd := by
  decide
theorem test_decode_roundF :
    decode (.seq 0b10000000) = .ok .roundF0 ∧ decode (.seq 0b10000001) = .ok .roundF1 ∧
      decode (.seq 0b10000010) = .ok .roundF2 ∧ decode (.seq 0b10000011) = .ok .roundF3 ∧
      decode (.seq 0b10000100) = .ok .roundF4 ∧ decode (.seq 0b10000101) = .ok .roundF5 ∧
      decode (.seq 0b10000110) = .ok .roundF6 ∧ decode (.seq 0b10000111) = .ok .roundF7 ∧
      decode (.seq 0b10001000) = .ok .roundF8 ∧ decode (.seq 0b10001001) = .ok .roundF9 ∧
      decode (.seq 0b10001010) = .ok .roundF10 ∧ decode (.seq 0b10001011) = .ok .roundF11 ∧
      decode (.seq 0b10001100) = .ok .roundF12 ∧ decode (.seq 0b10001101) = .ok .roundF13 ∧
      decode (.seq 0b10001110) = .ok .roundF14 ∧ decode (.seq 0b10001111) = .ok .roundF15 := by decide
theorem test_decode_roundG :
    decode (.seq 0b10010000) = .ok .roundG16 ∧ decode (.seq 0b10010001) = .ok .roundG17 ∧
      decode (.seq 0b10010010) = .ok .roundG18 ∧ decode (.seq 0b10010011) = .ok .roundG19 ∧
      decode (.seq 0b10010100) = .ok .roundG20 ∧ decode (.seq 0b10010101) = .ok .roundG21 ∧
      decode (.seq 0b10010110) = .ok .roundG22 ∧ decode (.seq 0b10010111) = .ok .roundG23 ∧
      decode (.seq 0b10011000) = .ok .roundG24 ∧ decode (.seq 0b10011001) = .ok .roundG25 ∧
      decode (.seq 0b10011010) = .ok .roundG26 ∧ decode (.seq 0b10011011) = .ok .roundG27 ∧
      decode (.seq 0b10011100) = .ok .roundG28 ∧ decode (.seq 0b10011101) = .ok .roundG29 ∧
      decode (.seq 0b10011110) = .ok .roundG30 ∧ decode (.seq 0b10011111) = .ok .roundG31 := by decide
theorem test_decode_roundH :
    decode (.seq 0b10100000) = .ok .roundH32 ∧ decode (.seq 0b10100001) = .ok .roundH33 ∧
      decode (.seq 0b10100010) = .ok .roundH34 ∧ decode (.seq 0b10100011) = .ok .roundH35 ∧
      decode (.seq 0b10100100) = .ok .roundH36 ∧ decode (.seq 0b10100101) = .ok .roundH37 ∧
      decode (.seq 0b10100110) = .ok .roundH38 ∧ decode (.seq 0b10100111) = .ok .roundH39 ∧
      decode (.seq 0b10101000) = .ok .roundH40 ∧ decode (.seq 0b10101001) = .ok .roundH41 ∧
      decode (.seq 0b10101010) = .ok .roundH42 ∧ decode (.seq 0b10101011) = .ok .roundH43 ∧
      decode (.seq 0b10101100) = .ok .roundH44 ∧ decode (.seq 0b10101101) = .ok .roundH45 ∧
      decode (.seq 0b10101110) = .ok .roundH46 ∧ decode (.seq 0b10101111) = .ok .roundH47 := by decide
theorem test_decode_roundI :
    decode (.seq 0b10110000) = .ok .roundI48 ∧ decode (.seq 0b10110001) = .ok .roundI49 ∧
      decode (.seq 0b10110010) = .ok .roundI50 ∧ decode (.seq 0b10110011) = .ok .roundI51 ∧
      decode (.seq 0b10110100) = .ok .roundI52 ∧ decode (.seq 0b10110101) = .ok .roundI53 ∧
      decode (.seq 0b10110110) = .ok .roundI54 ∧ decode (.seq 0b10110111) = .ok .roundI55 ∧
      decode (.seq 0b10111000) = .ok .roundI56 ∧ decode (.seq 0b10111001) = .ok .roundI57 ∧
      decode (.seq 0b10111010) = .ok .roundI58 ∧ decode (.seq 0b10111011) = .ok .roundI59 ∧
      decode (.seq 0b10111100) = .ok .roundI60 ∧ decode (.seq 0b10111101) = .ok .roundI61 ∧
      decode (.seq 0b10111110) = .ok .roundI62 ∧ decode (.seq 0b10111111) = .ok .roundI63 := by decide
theorem test_decode_idle : decode (.seq 0x00) = .error .idle := by decide
theorem test_decode_unreachable :
    ([0x01, 0x41, 0x7F, 0xC1, 0xFF] : List SeqWord).all
      (fun w => decide (decode (.seq w) = .error .unreachableSeq)) = true := by decide
theorem test_tableWord_too_wide :
    tableWord 10 1024 = .error .tooWide ∧ tableWord 8 256 = .error .tooWide ∧ decodeTableWord 10 1024 = none := by decide
theorem test_decodeTableWord :
    decodeTableWord 10 0x161 = some (.updb 0x61) ∧ decodeTableWord 16 0x2A5 = some .finish ∧
      decodeTableWord 8 0x93 = some .roundG19 ∧ decodeTableWord 8 0x00 = none := by decide
theorem test_encode_canonical :
    encode .reset = .cmd 0x000 ∧ encode (.updb 0x61) = .cmd 0x161 ∧ encode .finish = .cmd 0x200 ∧
      encode .tLoad = .seq 0x40 ∧ encode .roundI63 = .seq 0xBF ∧ encode .tAdd = .seq 0xC0 := by decide

/-! ### Primitives (95_test_vectors.md section 2) -/

theorem test_mix_row :
    mixF 0xAAAAAAAA 0x0F0F0F0F 0x12345678 = 0x1A1E5E5A ∧ mixG 0xAAAAAAAA 0x0F0F0F0F 0x12345678 = 0x0F2B0B2F ∧
      mixH 0xAAAAAAAA 0x0F0F0F0F 0x12345678 = 0xB791F3DD ∧ mixI 0xAAAAAAAA 0x0F0F0F0F 0x12345678 = 0xE0E4A4A0 := by
  decide
theorem test_rotl :
    rotl32 0x80000001 7 = 0x000000C0 ∧ rotl32 0x12345678 23 = 0x3C091A2B ∧ rotl32 0x00000001 22 = 0x00400000 ∧
      rotl32 0xDEADBEEF 21 = 0xDDFBD5B7 := by decide
theorem test_byte_order :
    leBytes32 0xD98C1DD4 = [0xd4, 0x1d, 0x8c, 0xd9] ∧ le32 0x61 0x62 0x63 0x80 = 0x80636261 ∧
      leBytes64 0x0123456789ABCDE8 = [0xe8, 0xcd, 0xab, 0x89, 0x67, 0x45, 0x23, 0x01] := by decide
/-- The sum checks of section 2.4. -/
theorem test_table_sums :
    ((List.finRange 64).map roundConstant).foldl (· + ·) 0 = 0x27F3A0BC ∧
      ((List.finRange 64).map shiftAmount).sum = 848 := by decide +kernel
theorem test_wordIndex_spots :
    (wordIndex 16, wordIndex 19, wordIndex 31, wordIndex 32, wordIndex 47, wordIndex 49, wordIndex 63) =
      (1, 0, 12, 5, 2, 7, 9) := by decide

/-! ### The compression engine on the block of "abc" (96_test_vectors_traces.md section 1) -/

/-- A round of the trace: the step with `SEQ` at the round takes each row's working variables to the next row's. -/
def traceOk (first : Nat) (rows : List Quad) (last : Seq) : Bool :=
  (List.range 16).all fun k =>
    match rows[k]?, rows[k + 1]? with
    | some p, some q =>
      decide (nextOf (step (abcState p (.round (Fin.ofNat 64 (first + k))))) =
        some (abcState q (if k < 15 then .round (Fin.ofNat 64 (first + k + 1)) else last)))
    | _, _ => false

/-- The working variables before round 0 and after each of the rounds 0 to 15. -/
def abcF : List Quad :=
  [⟨0x67452301, 0xEFCDAB89, 0x98BADCFE, 0x10325476⟩,
   ⟨0x10325476, 0xD6D117B4, 0xEFCDAB89, 0x98BADCFE⟩,
   ⟨0x98BADCFE, 0x344A8432, 0xD6D117B4, 0xEFCDAB89⟩,
   ⟨0xEFCDAB89, 0x2F6FBD72, 0x344A8432, 0xD6D117B4⟩,
   ⟨0xD6D117B4, 0x7AD956F2, 0x2F6FBD72, 0x344A8432⟩,
   ⟨0x344A8432, 0xC73741EF, 0x7AD956F2, 0x2F6FBD72⟩,
   ⟨0x2F6FBD72, 0x8BAC3051, 0xC73741EF, 0x7AD956F2⟩,
   ⟨0x7AD956F2, 0x207DC67B, 0x8BAC3051, 0xC73741EF⟩,
   ⟨0xC73741EF, 0x928D99F6, 0x207DC67B, 0x8BAC3051⟩,
   ⟨0x8BAC3051, 0x854B3712, 0x928D99F6, 0x207DC67B⟩,
   ⟨0x207DC67B, 0x74E2F284, 0x854B3712, 0x928D99F6⟩,
   ⟨0x928D99F6, 0x3020401C, 0x74E2F284, 0x854B3712⟩,
   ⟨0x854B3712, 0x5ED49596, 0x3020401C, 0x74E2F284⟩,
   ⟨0x74E2F284, 0xDDA9B9A6, 0x5ED49596, 0x3020401C⟩,
   ⟨0x3020401C, 0xA1051895, 0xDDA9B9A6, 0x5ED49596⟩,
   ⟨0x5ED49596, 0xE396856B, 0xA1051895, 0xDDA9B9A6⟩,
   ⟨0xDDA9B9A6, 0x72AFF2E0, 0xE396856B, 0xA1051895⟩]

/-- The working variables before round 16 and after each of the rounds 16 to 31. -/
def abcG : List Quad :=
  [⟨0xDDA9B9A6, 0x72AFF2E0, 0xE396856B, 0xA1051895⟩,
   ⟨0xA1051895, 0x3E9E9126, 0x72AFF2E0, 0xE396856B⟩,
   ⟨0xE396856B, 0x4A1D804E, 0x3E9E9126, 0x72AFF2E0⟩,
   ⟨0x72AFF2E0, 0xE25E1652, 0x4A1D804E, 0x3E9E9126⟩,
   ⟨0x3E9E9126, 0xB5B204E4, 0xE25E1652, 0x4A1D804E⟩,
   ⟨0x4A1D804E, 0x59A8FFDA, 0xB5B204E4, 0xE25E1652⟩,
   ⟨0xE25E1652, 0x6D002F1E, 0x59A8FFDA, 0xB5B204E4⟩,
   ⟨0xB5B204E4, 0xABFC7920, 0x6D002F1E, 0x59A8FFDA⟩,
   ⟨0x59A8FFDA, 0x47092C07, 0xABFC7920, 0x6D002F1E⟩,
   ⟨0x6D002F1E, 0xB7F268CF, 0x47092C07, 0xABFC7920⟩,
   ⟨0xABFC7920, 0x09388EFF, 0xB7F268CF, 0x47092C07⟩,
   ⟨0x47092C07, 0xFE1623B1, 0x09388EFF, 0xB7F268CF⟩,
   ⟨0xB7F268CF, 0x786ACB8F, 0xFE1623B1, 0x09388EFF⟩,
   ⟨0x09388EFF, 0x790A77FB, 0x786ACB8F, 0xFE1623B1⟩,
   ⟨0xFE1623B1, 0x9F47E4F8, 0x790A77FB, 0x786ACB8F⟩,
   ⟨0x786ACB8F, 0xA62884AA, 0x9F47E4F8, 0x790A77FB⟩,
   ⟨0x790A77FB, 0x726342D3, 0xA62884AA, 0x9F47E4F8⟩]

/-- The working variables before round 32 and after each of the rounds 32 to 47. -/
def abcH : List Quad :=
  [⟨0x790A77FB, 0x726342D3, 0xA62884AA, 0x9F47E4F8⟩,
   ⟨0x9F47E4F8, 0xB3707EBF, 0x726342D3, 0xA62884AA⟩,
   ⟨0xA62884AA, 0x60127B2E, 0xB3707EBF, 0x726342D3⟩,
   ⟨0x726342D3, 0x8D212FF5, 0x60127B2E, 0xB3707EBF⟩,
   ⟨0xB3707EBF, 0x3B0875C7, 0x8D212FF5, 0x60127B2E⟩,
   ⟨0x60127B2E, 0x21B117B9, 0x3B0875C7, 0x8D212FF5⟩,
   ⟨0x8D212FF5, 0x6E7429D5, 0x21B117B9, 0x3B0875C7⟩,
   ⟨0x3B0875C7, 0x3575227E, 0x6E7429D5, 0x21B117B9⟩,
   ⟨0x21B117B9, 0x5A2F5EA5, 0x3575227E, 0x6E7429D5⟩,
   ⟨0x6E7429D5, 0x11DE1779, 0x5A2F5EA5, 0x3575227E⟩,
   ⟨0x3575227E, 0xFADCAA38, 0x11DE1779, 0x5A2F5EA5⟩,
   ⟨0x5A2F5EA5, 0x31C465CA, 0xFADCAA38, 0x11DE1779⟩,
   ⟨0x11DE1779, 0x4C6124F4, 0x31C465CA, 0xFADCAA38⟩,
   ⟨0xFADCAA38, 0x7F2E507B, 0x4C6124F4, 0x31C465CA⟩,
   ⟨0x31C465CA, 0x99D9679D, 0x7F2E507B, 0x4C6124F4⟩,
   ⟨0x4C6124F4, 0x8FAE6399, 0x99D9679D, 0x7F2E507B⟩,
   ⟨0x7F2E507B, 0x7BEB9700, 0x8FAE6399, 0x99D9679D⟩]

/-- The working variables before round 48 and after each of the rounds 48 to 63. -/
def abcI : List Quad :=
  [⟨0x7F2E507B, 0x7BEB9700, 0x8FAE6399, 0x99D9679D⟩,
   ⟨0x99D9679D, 0x7B201DF8, 0x7BEB9700, 0x8FAE6399⟩,
   ⟨0x8FAE6399, 0xF4E8E96E, 0x7B201DF8, 0x7BEB9700⟩,
   ⟨0x7BEB9700, 0xB298CEFD, 0xF4E8E96E, 0x7B201DF8⟩,
   ⟨0x7B201DF8, 0x8BF025C4, 0xB298CEFD, 0xF4E8E96E⟩,
   ⟨0xF4E8E96E, 0x06CC5E8A, 0x8BF025C4, 0xB298CEFD⟩,
   ⟨0xB298CEFD, 0x5B0D97AA, 0x06CC5E8A, 0x8BF025C4⟩,
   ⟨0x8BF025C4, 0x7D632DD0, 0x5B0D97AA, 0x06CC5E8A⟩,
   ⟨0x06CC5E8A, 0x3BFA2C27, 0x7D632DD0, 0x5B0D97AA⟩,
   ⟨0x5B0D97AA, 0x7F81CC35, 0x3BFA2C27, 0x7D632DD0⟩,
   ⟨0x7D632DD0, 0x094454AB, 0x7F81CC35, 0x3BFA2C27⟩,
   ⟨0x3BFA2C27, 0x4F9DBE3F, 0x094454AB, 0x7F81CC35⟩,
   ⟨0x7F81CC35, 0x7327D604, 0x4F9DBE3F, 0x094454AB⟩,
   ⟨0x094454AB, 0x310ADE8F, 0x7327D604, 0x4F9DBE3F⟩,
   ⟨0x4F9DBE3F, 0x624D8CB2, 0x310ADE8F, 0x7327D604⟩,
   ⟨0x7327D604, 0xE484B9D8, 0x624D8CB2, 0x310ADE8F⟩,
   ⟨0x310ADE8F, 0xC08226B3, 0xE484B9D8, 0x624D8CB2⟩]

theorem test_load : nextOf (step (abcState ⟨1, 2, 3, 4⟩ .load)) = some (abcState initVector (.round 0)) := by decide
theorem test_roundsF : traceOk 0 abcF (.round 16) = true := by decide
theorem test_roundsG : traceOk 16 abcG (.round 32) = true := by decide
theorem test_roundsH : traceOk 32 abcH (.round 48) = true := by decide
theorem test_roundsI : traceOk 48 abcI .add = true := by decide
/-- The last line of the trace. -/
theorem test_add :
    after (fun t => (t.chain, t.seq))
      (step (abcState ⟨0x310ADE8F, 0xC08226B3, 0xE484B9D8, 0x624D8CB2⟩ .add)) =
      some (⟨0x98500190, 0xB04FD23C, 0x7D3F96D6, 0x727FE128⟩, .idle) := by decide
/-- 95_test_vectors.md section 4: `Transform` from a chaining value of zeros. -/
theorem test_transform_zero :
    transform ⟨0, 0, 0, 0⟩ (blockOfBytes []) = ⟨0xF7CD1C97, 0xA5483681, 0x2B68D832, 0xF90CA639⟩ := by decide +kernel

/-! ### Commands (95_test_vectors.md sections 5 and 6) -/

/-- Section 5.1, row 1. -/
theorem test_updb_first_byte :
    nextOf (exec (.updb 0x61) State.reset) = some { State.reset with buf := [(0, 0x61)], buflen := 1, bitcnt := 0x8 } := by
  decide
/-- Section 5.1: the wrap of the counter, with its transform of the block of zeros. -/
theorem test_updb_wrap :
    after (fun t => (t.bitcnt, t.buflen, t.err, t.chain))
      (exec (.updb 0x00) { State.reset with bitcnt := 0xFFFFFFFFFFFFFFF8, buflen := 63 }) =
      some (0, 0, 0, ⟨0x031F1DAC, 0x6EA58ED0, 0x1FAB67B7, 0x74317791⟩) := by decide +kernel
/-- Section 5.1, last row: the carry into the high half. -/
theorem test_addHalves_carry : addHalves 0 0xFFFFFFF8 8 = (1, 0) ∧ addHalves 0 0xFFFFFFF0 8 = (0, 0xFFFFFFF8) := by decide
/-- Section 5.4, row 1: the high half of the length reaches the digest. -/
theorem test_finish_long_length :
    after (fun t => (t.chain, t.bitcnt, t.fin, hex (digestBytes t)))
      (exec .finish { State.reset with bitcnt := 0x0000000100000000 }) =
      some (⟨0xA9C265DC, 0x65B5F762, 0x0D84E745, 0xF84979DE⟩, 0x0000000100000200, true,
        "dc65c2a962f7b56545e7840dde7949f8".toList) := by decide +kernel
/-- Section 5.4, row 2: padding over a block edge. -/
theorem test_finish_two_transforms :
    after (fun t => (t.bitcnt, hex (digestBytes t)))
      (exec .finish { State.reset with bitcnt := 0x0123456789ABCDE8, buflen := 61 }) =
      some (0x0123456789ABD000, "ed3228534fe7aaf02e1bd97139c6f4d6".toList) := by decide +kernel
/-- Section 6.2, rows 3 and 4. -/
theorem test_finish_twice :
    nextOf (exec .finish finalState) = some { finalState with err := 1 } ∧
      nextOf (exec .finish { finalState with err := 1 }) = some { finalState with err := 1 } := by decide
/-- Section 6.3, rows 2 and 3. -/
theorem test_updb_after_finish :
    nextOf (exec (.updb 0x62) finalState) = some { finalState with err := 2 } ∧
      nextOf (exec .finish { finalState with err := 2 }) = some { finalState with err := 2 } := by decide
/-- Section 6.4, row 2, and section 6.3, row 4. -/
theorem test_reserved :
    nextOf (exec .reserved (pendingState [0x61])) = some { pendingState [0x61] with err := 3 } ∧
      nextOf (exec .reserved { finalState with err := 2 }) = some { finalState with err := 2 } := by decide
/-- Section 6.3, row 5. -/
theorem test_reset : nextOf (exec .reset { finalState with err := 2 }) = some State.reset := by decide

/-! ### Steps -/

theorem test_step_no_word : nextOf (step finalState) = some finalState := by decide
/-- Section 6.5, row 1: a word with ignored bits set, the words behind it still waiting. -/
theorem test_step_ignored_bits :
    nextOf (step { finalState with cmds := [0x0FF, 0x161] }) = some { State.reset with cmds := [0x161] } := by decide
theorem test_withFetchWord_command :
    nextOf (step (State.reset.withFetchWord 16 0x161)) =
      some { State.reset with buf := [(0, 0x61)], buflen := 1, bitcnt := 0x8 } := by decide
theorem test_withFetchWord_micro :
    nextOf (step (State.reset.withFetchWord 8 0x40)) = some { State.reset with work := initVector, seq := .round 0 } := by
  decide
theorem test_withFetchWord_unreachable : State.reset.withFetchWord 8 0x41 = State.reset := by decide
/-- 60_exceptions.md R210: the stopping form. -/
theorem test_guardedStep :
    guardedStep { finalState with cmds := [0x200] } = .fault (.misuse .doubleFinish) ∧
      nextOf (guardedStep { State.reset with cmds := [0x161] }) = nextOf (step { State.reset with cmds := [0x161] }) := by
  exact ⟨rfl, by decide⟩

/-! ### Text (30_encoding.md R80, R83; 44_oneshot.md R191) -/

theorem test_assemble_char : assembleLine "UPDB 'a'   ; first byte".toList = .ok (.command (.updb 0x61)) := by decide
theorem test_assemble_numerals :
    assembleLine "UPDB 255".toList = .ok (.command (.updb 0xFF)) ∧
      assembleLine "UPDB 0x7F".toList = .ok (.command (.updb 0x7F)) ∧
      assembleLine "UPDB 256".toList = .error .badOperand := by decide
theorem test_assemble_bytes :
    assembleLine "UPDATE [61 62 63]".toList = .ok (.pseudo (.update [0x61, 0x62, 0x63])) ∧
      assembleLine "finish".toList = .error .unknownMnemonic := by decide
/-- Program P2 of 95_test_vectors.md section 9, and `HEXDIGEST` as its abbreviation. -/
theorem test_assemble_program :
    assemble ["NEW".toList, "UPDATE [61 62 63]".toList, "FINISH ; ends".toList, "DIGEST?".toList] =
      .ok [.reset, .updb 0x61, .updb 0x62, .updb 0x63, .finish] ∧
      ([.reset, .updb 0x61, .updb 0x62, .updb 0x63, .finish] : List Instr).filterMap commandWord =
        [0x000, 0x161, 0x162, 0x163, 0x200] ∧
      Pseudo.expand (.hexdigest [0x61, 0x62, 0x63]) = [.reset, .updb 0x61, .updb 0x62, .updb 0x63, .finish] := by decide
/-- The message of vector V2 as a text; a text with characters outside ASCII, its bytes from the Unicode standard. -/
theorem test_assemble_text :
    assembleLine ("HEXDIGEST ".toList ++ [doubleQuote, 'a', doubleQuote]) = .ok (.pseudo (.hexdigest [0x61])) ∧
      assembleLine ("UPDATE ".toList ++ [doubleQuote, Char.ofNat 0xE9, Char.ofNat 0x20AC, doubleQuote]) =
        .ok (.pseudo (.update [0xC3, 0xA9, 0xE2, 0x82, 0xAC])) := by decide
/-- The message of vector V4. -/
theorem test_textBytes :
    textBytes "message digest".toList =
      [0x6d, 0x65, 0x73, 0x73, 0x61, 0x67, 0x65, 0x20, 0x64, 0x69, 0x67, 0x65, 0x73, 0x74] := by decide
theorem test_listing : listingLine (.updb 0x61) = some "161  UPDB 0x61".toList := by decide
/-- Vector V3: the digest as bytes of the padded message, and its rendering. -/
theorem test_md5_abc : hex (md5 [0x61, 0x62, 0x63]) = "900150983cd24fb0d6963f7d28e17f72".toList := by decide +kernel
/-- 20_memory.md R52: byte `j` of the output is `DIGEST[j]`. -/
theorem test_observe : observe finalState = ⟨0x7e42f8ec980980e904b2008fd98c1dd4, true, 0⟩ := by decide

/-! ### Witnesses: a state and operands that meet the hypotheses of each statement -/

theorem witness_ResetErasesTheEarlierMessage :
    Program.wf [.updb 0x62, .finish] = true ∧ Ready (pendingState [0x61]) := ⟨by decide, rfl, rfl⟩

/-- One byte short of a full block, and the byte that fills it. -/
theorem witness_UpdbAbsorbsItsByte :
    (∃ s : State, s.fin = false ∧ s.buflen ≠ 63 ∧ s.buflen = 62 ∧ ∃ a, a ≠ absorbAddress s) ∧
      ∃ s : State, s.fin = false ∧ s.buflen = 63 :=
  ⟨⟨{ State.reset with buflen := 62 }, rfl, by decide, rfl, 63, by decide⟩, ⟨{ State.reset with buflen := 63 }, rfl, rfl⟩⟩

/-- The last value that carries, and the one before it, which does not. -/
theorem witness_UpdbCarriesIntoTheHighHalf :
    (∃ s : State, s.fin = false ∧ s.bitcnt.toNat % 8 = 0 ∧ bitcntLo s.bitcnt = 0xFFFFFFF8) ∧
      ∃ s : State, s.fin = false ∧ s.bitcnt.toNat % 8 = 0 ∧ bitcntLo s.bitcnt = 0xFFFFFFF0 :=
  ⟨⟨{ State.reset with bitcnt := 0xFFFFFFF8 }, rfl, rfl, rfl⟩, ⟨{ State.reset with bitcnt := 0xFFFFFFF0 }, rfl, rfl, rfl⟩⟩

/-- The largest counter below the carry whose bytes are whole, and the smallest low half that carries. -/
theorem witness_CounterHalvesAgreeWithTheWhole :
    BitVec.toNat (0xFFFFFFF8 : Count) % 8 = 0 ∧ 2 ^ 32 ≤ (bitcntLo 0xFFFFFFF8).toNat + 8 ∧
      BitVec.toNat (0xFFFFFFF0 : Count) % 8 = 0 ∧ (bitcntLo 0xFFFFFFF0).toNat + 8 < 2 ^ 32 := by decide

theorem witness_CounterWrapsWithoutFault :
    ∃ s : State, s.fin = false ∧ s.bitcnt = 0xFFFFFFFFFFFFFFF8 :=
  ⟨{ State.reset with bitcnt := 0xFFFFFFFFFFFFFFF8 }, rfl, rfl⟩

theorem witness_BlockCompletesWithItsLastByte : (List.replicate 63 (0x61 : Byte)).length = 63 := by decide

/-- An empty slice, and one that fills the block exactly. -/
theorem witness_SliceUpdateEqualsItsByteCommands :
    Ready (pendingState [0x61]) ∧ (pendingState [0x61]).fin = false ∧
      (pendingState [0x61]).buflen.toNat + (List.replicate 63 (0x61 : Byte)).length = 64 :=
  ⟨⟨rfl, rfl⟩, rfl, by decide⟩

/-- On each side of the branch at 56, and with the last clause's hypotheses. -/
theorem witness_FinishDigestsThePaddedTail :
    ∃ s u : State, s.fin = false ∧ s.buflen.toNat = 55 ∧ s.bitcnt.toNat % 8 = 0 ∧ s.buflen.toNat = s.bitcnt.toNat / 8 % 64 ∧
      u.fin = false ∧ u.buflen.toNat = 56 ∧ u.bitcnt.toNat % 8 = 0 ∧ u.buflen.toNat = u.bitcnt.toNat / 8 % 64 :=
  ⟨{ State.reset with buflen := 55, bitcnt := 0x1B8 }, { State.reset with buflen := 56, bitcnt := 0x1C0 },
    rfl, rfl, rfl, rfl, rfl, rfl, rfl, rfl⟩

/-- The last byte below the stored ones, and the first address above the digest. -/
theorem witness_FinishFrame :
    (pendingState [0x61, 0x62, 0x63]).fin = false ∧
      (∀ k < (finishBytes (pendingState [0x61, 0x62, 0x63])).length,
        2 ≠ (absorbAddress (pendingState [0x61, 0x62, 0x63]) + k) % 64) ∧ 16 ≤ 16 := by decide

theorem witness_DigestSerialisesTheChain : State.reset.fin = false ∧ 0 < 4 ∧ 3 < 4 := by decide

theorem witness_LengthFillsTheLastTwoWords : (List.replicate 56 (0x00 : Byte)).length = 56 := by decide

theorem witness_DigestIsMd5OfTheMessage : Ready finalState := ⟨rfl, rfl⟩

theorem witness_HexdigestRendersTheDigest : Ready (pendingState [0x61]) := ⟨rfl, rfl⟩

/-- An engine between commands; the last ASCII character; a text beyond ASCII with no double quote in it. -/
theorem witness_TextMessagesAreTheirUtf8Bytes :
    Ready finalState ∧ (∀ c ∈ [Char.ofNat 127, 'a'], c.toNat < 128) ∧
      doubleQuote ∉ [Char.ofNat 0xE9, ';', 'a'] := by
  refine ⟨⟨rfl, rfl⟩, ?_, by decide⟩
  intro c hc
  obtain rfl | rfl : c = Char.ofNat 127 ∨ c = 'a' := by simpa using hc
  · exact Nat.le_of_ble_eq_true rfl
  · exact Nat.le_of_ble_eq_true rfl

theorem witness_HexPlacesTheNibbles : 0 < [(0xd4 : Byte), 0x1d].length ∧ 1 < [(0xd4 : Byte), 0x1d].length := by decide

/-- A finalized engine; and for the last clause an instruction that raises nothing on it, and one on an open engine. -/
theorem witness_MisuseTableIsComplete :
    finalState.fin = true ∧ exec .tLoad finalState = .next (loadOp finalState) ∧
      State.reset.fin = false ∧ exec (.updb 0x61) State.reset = .next (absorb 0x61 State.reset) := ⟨rfl, rfl, rfl, rfl⟩

theorem witness_UpdbAfterFinishFaults : finalState.fin = true := rfl

theorem witness_FinalizedEngineRunsOnlyReset :
    finalState.fin = true ∧ Instr.issuable .reserved = true ∧ Instr.reserved ≠ .reset := by decide

theorem witness_ErrIsStickyAndGatesNothing :
    exec .finish { finalState with err := 3 } = .next { finalState with err := 3 } ∧ Instr.finish ≠ .reset ∧
      (3 : BitVec 2) ≠ 0 := ⟨rfl, by decide, by decide⟩

/-- A waiting word for each of the three causes; then a misuse, a step that is none, and no step at all. -/
theorem witness_GuardedStepFaultsExactlyOnMisuse :
    (∃ s : State, s.seq = .idle ∧ s.cmds = 0x200 :: [] ∧ s.fin = true ∧ decode (.cmd 0x200) = .ok .finish) ∧
      (∃ s : State, s.seq = .idle ∧ s.cmds = 0x162 :: [] ∧ s.fin = true ∧ decode (.cmd 0x162) = .ok (.updb 0x62)) ∧
      (∃ s : State, s.seq = .idle ∧ s.cmds = 0x3AB :: [] ∧ s.fin = false ∧ decode (.cmd 0x3AB) = .ok .reserved) ∧
    guardedStep { finalState with cmds := [0x162] } = .fault (.misuse .updateAfterFinish) ∧
      guardedStep { finalState with cmds := [0x000] } = .next State.reset ∧
      guardedStep finalState = .next finalState :=
  ⟨⟨{ finalState with cmds := [0x200] }, rfl, rfl, rfl, by decide⟩,
    ⟨{ finalState with cmds := [0x162] }, rfl, rfl, rfl, by decide⟩,
    ⟨{ State.reset with cmds := [0x3AB] }, rfl, rfl, rfl, by decide⟩, rfl, rfl, rfl⟩

theorem witness_GuardedRunsAgreeWithTheMachine :
    Host.Core.run guardedCore 1 { finalState with cmds := [0x000] } = .next State.reset := rfl

theorem witness_FinSetByFinishClearedByReset :
    exec .finish State.reset = .next (finishMessage State.reset) ∧ exec .reset finalState = .next State.reset ∧
      exec .tLoad finalState = .next (loadOp finalState) := ⟨rfl, rfl, rfl⟩

theorem witness_DigestWrittenOnlyByFinishAndReset :
    exec .finish finalState = .next { finalState with err := 1 } ∧ finalState.fin = true ∧ Instr.finish ≠ .reset :=
  ⟨rfl, rfl, by decide⟩

theorem witness_DigestStaysUntilReset :
    Program.wf [.updb 0x61, .finish, .reserved] = true ∧ Instr.reset ∉ [Instr.updb 0x61, .finish, .reserved] ∧
      Ready finalState ∧ finalState.fin = true := ⟨by decide, by decide, ⟨rfl, rfl⟩, rfl⟩

/-- A byte with one place left, a second `FINISH`, and a byte on a finalized engine. -/
theorem witness_ChainWrittenOnlyByResetAndAdd :
    (∃ t, exec (.updb 0x61) { State.reset with buflen := 62 } = .next t) ∧ (62 : BitVec 6) ≠ 63 ∧
      (∃ t, exec .finish finalState = .next t) ∧ (∃ t, exec (.updb 0x61) finalState = .next t) ∧ finalState.fin = true :=
  ⟨⟨_, rfl⟩, by decide, ⟨_, rfl⟩, ⟨_, rfl⟩, rfl⟩

/-- The largest whole-byte counters that stay below 2^64: for a byte, for `FINISH` with no byte pending (64 bytes), and,
with nothing counted, the largest of all: for a second `FINISH`, a dropped byte and the reserved code. -/
theorem witness_CounterIsMonotone :
    (∃ s t : State, exec (.updb 0x61) s = .next t ∧ s.fin = false ∧ s.bitcnt.toNat + 8 < 2 ^ 64 ∧
      s.bitcnt.toNat + 16 = 2 ^ 64) ∧
      (∃ s t : State, exec .finish s = .next t ∧ s.fin = false ∧
        s.bitcnt.toNat + 8 * (padLength s.buflen + 8) < 2 ^ 64 ∧
        s.bitcnt.toNat + 8 * (padLength s.buflen + 9) = 2 ^ 64) ∧
      ∃ s t u v : State, s.fin = true ∧ s.bitcnt.toNat + 8 = 2 ^ 64 ∧ exec .finish s = .next t ∧
        exec (.updb 0x61) s = .next u ∧ exec .reserved s = .next v :=
  ⟨⟨{ State.reset with bitcnt := 0xFFFFFFFFFFFFFFF0 }, _, rfl, rfl, by decide, by decide⟩,
    ⟨{ State.reset with bitcnt := 0xFFFFFFFFFFFFFDF8 }, _, rfl, rfl, by decide, by decide⟩,
    ⟨{ finalState with bitcnt := 0xFFFFFFFFFFFFFFF8 }, _, _, _, rfl, by decide, rfl, rfl, rfl⟩⟩

theorem witness_HostSeesDigestBytes : 0 < 16 ∧ 15 < 16 ∧ 0 < 8 ∧ 7 < 8 := by decide

theorem witness_RoundFMixesAndRotates :
    ⟨.roundF0, 0, 0, 7, 0xD76AA478⟩ ∈ rowsF ∧ ⟨.roundF15, 15, 15, 22, 0x49B40821⟩ ∈ rowsF := by
  simp [rowsF]

theorem witness_RoundGMixesAndRotates :
    ⟨.roundG16, 16, 1, 5, 0xF61E2562⟩ ∈ rowsG ∧ ⟨.roundG31, 31, 12, 20, 0x8D2A4C8A⟩ ∈ rowsG := by
  simp [rowsG]

theorem witness_RoundHMixesAndRotates :
    ⟨.roundH32, 32, 5, 4, 0xFFFA3942⟩ ∈ rowsH ∧ ⟨.roundH47, 47, 2, 23, 0xC4AC5665⟩ ∈ rowsH := by
  simp [rowsH]

/-- A round that goes on to the next one, and the last one. -/
theorem witness_RoundIMixesAndRotates :
    ⟨.roundI62, 62, 2, 15, 0x2AD7D2BB⟩ ∈ rowsI ∧ ⟨.roundI63, 63, 9, 21, 0xEB86D391⟩ ∈ rowsI := by
  simp [rowsI]

/-- The path at its ends and at its changes of phase. -/
theorem witness_SequencerTakesItsOnePath :
    (abcState initVector .load).seq = .load ∧ seqPath 0 = .load ∧ seqPath 1 = .round 0 ∧ seqPath 64 = .round 63 ∧
      seqPath 65 = .add ∧ seqPath 66 = .idle := by decide

theorem witness_MicroOperationsComputeTransform : (abcState initVector .load).seq = .load := rfl

theorem witness_MicroOperationsTouchOnlyTheEngine :
    Instr.format .tLoad = .seq ∧ Instr.format .roundG19 = .seq ∧ Instr.format .tAdd = .seq := by decide

theorem witness_MixingFunctionsBitByBit : 0 < 32 ∧ 31 < 32 := by decide

theorem witness_RotationMovesEachBit : 1 ≤ 1 ∧ 1 ≤ 31 ∧ 31 ≤ 31 ∧ 0 < 32 ∧ 31 < 32 := by decide

theorem witness_RoundOperandsMatchTheTables :
    ⟨.roundG19, 19, 0, 20, 0xE9B6C7AA⟩ ∈ rowsF ++ rowsG ++ rowsH ++ rowsI ∧ 0 < 4 ∧ 3 < 4 := by
  simp [rowsF, rowsG, rowsH, rowsI]

theorem witness_BlockWordsAreLittleEndian : 0 < 4 ∧ 3 < 4 ∧ 0 < 8 ∧ 7 < 8 := by decide

theorem witness_DecodeAndEncodeAgree :
    decode (.cmd 0x2A5) = .ok .finish ∧ canonicalWord (.cmd 0x2A5) = encode .finish ∧
      canonicalWord (.cmd 0x1A5) = encode (.updb 0xA5) := by decide

theorem witness_IgnoredDataBitsChangeNothing : State.reset.seq = .idle := rfl

theorem witness_CommandTextAssembles : instrText (.updb 0x61) = some "UPDB 0x61".toList := by decide

/-- The three ways to step: a waiting word, a sequencer word, none. -/
theorem witness_StepRunsTheDecodedInstruction :
    (decode (.cmd 0x161) = .ok (.updb 0x61) ∧ (pendingState []).seq = .idle) ∧
      (decode (.seq (seqRegisterWord (.round 63))) = .ok .roundI63 ∧ (abcState initVector (.round 63)).seq ≠ .idle) ∧
      finalState.seq = .idle ∧ finalState.cmds = [] := by decide

/-- The invariant holds of a finalized engine, and its next step, a `RESET`, answers. -/
theorem witness_ObservationInvariantKept :
    ObservationInv { finalState with cmds := [0x000] } ∧
      step { finalState with cmds := [0x000] } = .next State.reset :=
  ⟨⟨⟨by decide, by decide⟩, rfl, by decide, by decide, fun h => absurd h (by decide), fun _ => rfl⟩, rfl⟩

theorem witness_StorageStaysInBounds :
    StorageOk (abcState initVector .load) ∧ step (abcState ⟨1, 2, 3, 4⟩ .load) = .next (abcState initVector (.round 0)) :=
  ⟨⟨by decide, by decide⟩, rfl⟩

/-- Two engines that differ in the working variables only. -/
theorem witness_WorkingVariablesAreUnobservable :
    State.reset.seq = .idle ∧ SameButWork State.reset { State.reset with work := ⟨1, 2, 3, 4⟩ } := ⟨rfl, rfl⟩

end Sys2Proof.Tests
end

section
/-! PROOFS of the scope statements (00_scope.md): every step completes. -/

namespace Sys2Proof.Machine

/-- A command completes, a misuse too: it is the entry of 60_exceptions.md R204, a next state. -/
theorem exec_command_completes {i : Instr} (h : i.format = .cmd) (s : State) : ∃ t, exec i s = .next t := by
  obtain rfl | ⟨d, rfl⟩ | rfl | rfl := command_cases h
  · exact ⟨_, exec_reset s⟩
  · cases hfin : s.fin with
    | false => exact ⟨_, exec_updb_open d hfin⟩
    | true => exact ⟨_, exec_updb_finalized d hfin⟩
  · cases hfin : s.fin with
    | false => exact ⟨_, exec_finish_open hfin⟩
    | true => exact ⟨_, exec_finish_finalized hfin⟩
  · exact ⟨_, exec_reserved s⟩

/-- A micro-operation completes: none raises an exception (40_transform.md R101). -/
theorem exec_micro_completes {i : Instr} (h : i.format = .seq) (s : State) : ∃ t, exec i s = .next t := by
  obtain rfl | ⟨k, rfl⟩ | rfl := micro_cases h
  · exact ⟨_, exec_tLoad s⟩
  · exact ⟨_, exec_roundInstr k s⟩
  · exact ⟨_, exec_tAdd s⟩

/-- No instruction faults or is refused, in any state (60_exceptions.md R200). -/
theorem exec_completes (i : Instr) (s : State) : ∃ t, exec i s = .next t := by
  cases h : i.format with
  | cmd => exact exec_command_completes h s
  | seq => exact exec_micro_completes h s

/-- Settles O54: a step is idle or is the meaning of one decoded instruction, and each instruction completes. -/
theorem everyStepCompletes : Obligations.EveryStepCompletes := by
  intro s
  obtain ⟨-, -, hidle⟩ | ⟨i, u, hstep, -, -⟩ := step_cases s
  · exact ⟨s, hidle⟩
  · rw [hstep]
    exact exec_completes i u

end Sys2Proof.Machine
end

section
/-! SUPPORT. What `fetch` takes in each case, and the effects of the instructions on the registers, coarser than
`exec_cases`: the proofs about who writes what go through these. -/

namespace Sys2Proof.Machine

open Sys2Proof.Safety

/-! ### Fetching -/

/-- A step is the meaning of the instruction that the fetched word decodes to. -/
theorem step_of_fetch {s t : State} {c : CodeWord} {i : Instr} (hf : fetch s = some (c, t)) (hd : decode c = .ok i) :
    step s = exec i t := by
  simp [step, hf, hd]

theorem fetch_idle {s : State} {w : CmdWord} {ws : List CmdWord} (hs : s.seq = .idle) (hc : s.cmds = w :: ws) :
    fetch s = some (.cmd w, { s with cmds := ws }) := by
  simp [fetch, hs, fetchCommand, hc]

theorem fetch_busy {s : State} (hs : s.seq ≠ .idle) : fetch s = some (.seq (seqRegisterWord s.seq), s) := by
  cases h : s.seq with
  | idle => exact absurd h hs
  | load => simp [fetch, h]
  | round i => simp [fetch, h]
  | add => simp [fetch, h]

theorem decodeCmd_format (w : CmdWord) : (decodeCmd w).format = .cmd := by
  unfold decodeCmd
  split <;> rfl

/-! ### `FINISH` -/

theorem finishMessage_bitcnt (s : State) :
    (finishMessage s).bitcnt = s.bitcnt + BitVec.ofNat 64 (8 * (padLength s.buflen + 8)) := by
  obtain ⟨-, -, -, -, -, -, -, hbitcnt⟩ := finishMessage_fields s
  exact hbitcnt

theorem finishMessage_err (s : State) : (finishMessage s).err = s.err := by
  obtain ⟨-, herr, -⟩ := finishMessage_fields s
  exact herr

/-! ### Effects -/

/-- The five effects an instruction can have on a state, coarser than `exec_cases`: a micro-operation is known by its
frame (40_transform.md R101). -/
inductive Effect (s : State) : Instr → State → Prop
  /-- Every register with a reset value takes it. -/
  | reset : Effect s .reset (resetRegisters s)
  /-- A misuse records its code, if it is the first. -/
  | misuse {i : Instr} (m : Misuse) (hm : misuseOf i s = some m) : Effect s i (raiseMisuse m s)
  /-- The byte of a `UPDB` is absorbed. -/
  | absorb (d : Byte) (hopen : s.fin = false) : Effect s (.updb d) (absorb d s)
  /-- The message ends. -/
  | finish (hopen : s.fin = false) : Effect s .finish (finishMessage s)
  /-- A micro-operation writes the compression engine's registers, and `A` to `D` only if it is `T.ADD`. -/
  | micro {i : Instr} {t : State} (hi : i.format = .seq)
      (hframe : t = { s with chain := t.chain, work := t.work, seq := t.seq, draws := t.draws })
      (hchain : i ≠ .tAdd → t.chain = s.chain) : Effect s i t

theorem exec_effect {i : Instr} {s t : State} (h : exec i s = .next t) : Effect s i t := by
  obtain ⟨rfl, rfl⟩ | ⟨d, rfl, hfin, rfl⟩ | ⟨d, rfl, hopen, rfl⟩ | ⟨rfl, hfin, rfl⟩ | ⟨rfl, hopen, rfl⟩ | ⟨rfl, rfl⟩ |
    ⟨rfl, rfl⟩ | ⟨k, rfl, rfl⟩ | ⟨rfl, rfl⟩ := exec_cases h
  · exact .reset
  · exact .misuse _ (by simp [misuseOf, hfin])
  · exact .absorb d hopen
  · exact .misuse _ (by simp [misuseOf, hfin])
  · exact .finish hopen
  · exact .misuse _ rfl
  · exact .micro rfl rfl fun _ => rfl
  · exact .micro (roundInstr_format k) (by rw [roundOp_eq]) fun _ => by rw [roundOp_eq]
  · exact .micro rfl rfl fun hne => absurd rfl hne

/-- `FINISH` is a misuse on a finalized engine only (60_exceptions.md R201). -/
theorem fin_of_misuse_finish {s : State} {m : Misuse} (h : misuseOf .finish s = some m) : s.fin = true := by
  by_contra hfin
  simp [misuseOf, hfin] at h

end Sys2Proof.Machine
end

section
/-! PROOFS of the statements about the state (10_state.md): the counter as two halves, who writes each register, the
invariant of observation points, and what `ERR` and the working variables cannot influence. -/

namespace Sys2Proof.Machine

open Sys2Proof.Safety

/-! ### The counter -/

theorem toNat_bitcntLo (c : Count) : (bitcntLo c).toNat = c.toNat % 2 ^ 32 := by
  simp [bitcntLo]

theorem toNat_bitcntHi (c : Count) : (bitcntHi c).toNat = c.toNat / 2 ^ 32 := by
  have := c.isLt
  rw [bitcntHi, BitVec.extractLsb'_toNat, Nat.shiftRight_eq_div_pow]
  omega

theorem toNat_add_setWidth (c : Count) (n : Word) :
    (c + n.setWidth 64).toNat = (c.toNat + n.toNat) % 2 ^ 64 := by
  have := n.isLt
  rw [BitVec.toNat_add, BitVec.toNat_setWidth]
  omega

theorem bitcntLo_add (c : Count) (n : Word) : bitcntLo (c + n.setWidth 64) = bitcntLo c + n := by
  apply BitVec.eq_of_toNat_eq
  rw [toNat_bitcntLo, toNat_add_setWidth, BitVec.toNat_add, toNat_bitcntLo]
  omega

/-- The high half takes 1 exactly where the sum of the low halves leaves 32 bits. -/
theorem bitcntHi_add (c : Count) (n : Word) :
    bitcntHi (c + n.setWidth 64) =
      bitcntHi c + (if 2 ^ 32 ≤ (bitcntLo c).toNat + n.toNat then 1 else 0) := by
  have := c.isLt
  have := n.isLt
  apply BitVec.eq_of_toNat_eq
  rw [toNat_bitcntHi, toNat_add_setWidth, BitVec.toNat_add, toNat_bitcntHi, toNat_bitcntLo]
  have h0 : BitVec.toNat (0 : Word) = 0 := rfl
  have h1 : BitVec.toNat (1 : Word) = 1 := rfl
  split
  · rw [h1]
    omega
  · rw [h0]
    omega

/-- A sum of two words wraps exactly where it is below a summand. -/
theorem carry_iff_wrapped_lt (lo n : Word) : 2 ^ 32 ≤ lo.toNat + n.toNat ↔ (lo + n).toNat < n.toNat := by
  have := lo.isLt
  have := n.isLt
  rw [BitVec.toNat_add]
  omega

/-- Of the low halves that count whole bytes, only the last one carries when a byte is counted. -/
theorem carry_of_byte_iff {c : Count} (h : c.toNat % 8 = 0) :
    2 ^ 32 ≤ (bitcntLo c).toNat + 8 ↔ bitcntLo c = 0xFFFFFFF8 := by
  have hlo := toNat_bitcntLo c
  have hlast : BitVec.toNat (0xFFFFFFF8 : Word) = 0xFFFFFFF8 := rfl
  rw [← BitVec.toNat_inj, hlast]
  omega

/-- Settles O6: the halves of the sum are computed on numbers, where the counter is `lo + 2^32 hi`. -/
theorem counterHalvesAgreeWithTheWhole : Obligations.CounterHalvesAgreeWithTheWhole :=
  fun c n => ⟨bitcntLo_add c n, bitcntHi_add c n, carry_iff_wrapped_lt (bitcntLo c) n, carry_of_byte_iff⟩

/-- An addition that does not wrap does not decrease the counter. -/
theorem toNat_le_toNat_add {c n : Count} (h : c.toNat + n.toNat < 2 ^ 64) : c.toNat ≤ (c + n).toNat := by
  rw [BitVec.toNat_add_of_lt h]
  exact Nat.le_add_right _ _

/-! ### The step -/

/-- Settles O53: what `fetch` takes, from the channel or from `SEQ`, is what the step decodes and runs. -/
theorem stepRunsTheDecodedInstruction : Obligations.StepRunsTheDecodedInstruction :=
  ⟨fun _ _ _ _ hs hc hd => step_of_fetch (fetch_idle hs hc) hd, fun _ _ hs hd => step_of_fetch (fetch_busy hs) hd,
    fun _ hs hc => step_noCommand hs hc⟩

/-! ### Who writes a register -/

/-- Settles O30, effect by effect. -/
theorem finSetByFinishClearedByReset : Obligations.FinSetByFinishClearedByReset := by
  intro i s t h
  cases exec_effect h with
  | reset => exact ⟨nofun, fun _ => rfl, fun _ hne => absurd rfl hne⟩
  | misuse m hm =>
    refine ⟨?_, ?_, fun _ _ => rfl⟩
    · rintro rfl
      exact fin_of_misuse_finish hm
    · rintro rfl
      cases hm
  | absorb d _ => exact ⟨nofun, nofun, fun _ _ => absorb_fin d s⟩
  | finish _ => exact ⟨fun _ => rfl, nofun, fun hne => absurd rfl hne⟩
  | micro hi hframe _ =>
    refine ⟨?_, ?_, fun _ _ => by rw [hframe]⟩
    · rintro rfl
      cases hi
    · rintro rfl
      cases hi

/-- Settles O31, effect by effect: `Absorb`, a misuse and a micro-operation leave `DIGEST`. -/
theorem digestWrittenOnlyByFinishAndReset : Obligations.DigestWrittenOnlyByFinishAndReset := by
  intro i s t h hreset hfinish
  cases exec_effect h with
  | reset => exact absurd rfl hreset
  | misuse => rfl
  | absorb d _ => exact absorb_digest d s
  | finish hopen => simp [hopen] at hfinish
  | micro _ hframe _ => rw [hframe]

/-- Settles O33, effect by effect: `Absorb` of a byte that completes no block leaves `A` to `D`. -/
theorem chainWrittenOnlyByResetAndAdd : Obligations.ChainWrittenOnlyByResetAndAdd := by
  intro i s t h hreset hadd hfinish hupdb
  cases exec_effect h with
  | reset => exact absurd rfl hreset
  | misuse => rfl
  | absorb d hopen =>
    have hroom : s.buflen ≠ 63 := (hupdb d rfl).resolve_left (by simp [hopen])
    exact (absorb_room_view d hroom).1
  | finish hopen => simp [hopen] at hfinish
  | micro _ _ hchain => exact hchain hadd

/-- Settles O34, effect by effect: only `UPDB` and `FINISH` on an open engine count bits, and they have the room. -/
theorem counterIsMonotone : Obligations.CounterIsMonotone := by
  intro i s t h hreset hupdb hfinish
  cases exec_effect h with
  | reset => exact absurd rfl hreset
  | misuse => exact Nat.le_refl _
  | absorb d hopen =>
    rw [absorb_bitcnt]
    exact toNat_le_toNat_add (hupdb d rfl hopen)
  | finish hopen =>
    have hroom := hfinish rfl hopen
    rw [finishMessage_bitcnt]
    refine toNat_le_toNat_add ?_
    rw [BitVec.toNat_ofNat]
    omega
  | micro _ hframe _ => rw [hframe]

/-! ### `ERR` -/

theorem stickyErr_of_ne_zero {err : BitVec 2} (m : Misuse) (h : err ≠ 0) : stickyErr err m = err := if_neg h

/-- No instruction but `RESET` changes a nonzero `ERR` (60_exceptions.md R204). -/
theorem exec_keeps_err {i : Instr} {s t : State} (h : exec i s = .next t) (hreset : i ≠ .reset) (herr : s.err ≠ 0) :
    t.err = s.err := by
  cases exec_effect h with
  | reset => exact absurd rfl hreset
  | misuse m _ => exact stickyErr_of_ne_zero m herr
  | absorb d _ => exact absorb_err d s
  | finish _ => exact finishMessage_err s
  | micro _ hframe _ => rw [hframe]

theorem absorb_withErr (d : Byte) (e : BitVec 2) (s : State) :
    absorb d { s with err := e } = { absorb d s with err := e } := by
  by_cases h : s.buflen = 63
  · rw [absorb_full d h, absorb_full (s := { s with err := e }) d h]
  · rw [absorb_room d h, absorb_room (s := { s with err := e }) d h]

theorem absorbAll_withErr (ds : List Byte) (e : BitVec 2) (s : State) :
    absorbAll ds { s with err := e } = { absorbAll ds s with err := e } := by
  induction ds generalizing s with
  | nil => rfl
  | cons d ds ih => rw [absorbAll_cons, absorb_withErr, ih, absorbAll_cons]

theorem finishMessage_withErr (e : BitVec 2) (s : State) :
    finishMessage { s with err := e } = { finishMessage s with err := e } := by
  have h : finishBytes { s with err := e } = finishBytes s := rfl
  simp only [finishMessage, h, absorbAll_withErr]

/-- `ERR` gates nothing (60_exceptions.md R209): with another `ERR` an instruction answers the same state but for `ERR`. -/
theorem exec_withErr {i : Instr} {s t : State} (e : BitVec 2) (h : exec i s = .next t) :
    ∃ u, exec i { s with err := e } = .next u ∧ u = { t with err := u.err } := by
  obtain ⟨rfl, rfl⟩ | ⟨d, rfl, hfin, rfl⟩ | ⟨d, rfl, hopen, rfl⟩ | ⟨rfl, hfin, rfl⟩ | ⟨rfl, hopen, rfl⟩ | ⟨rfl, rfl⟩ |
    ⟨rfl, rfl⟩ | ⟨k, rfl, rfl⟩ | ⟨rfl, rfl⟩ := exec_cases h
  · exact ⟨_, exec_reset _, rfl⟩
  · exact ⟨_, exec_updb_finalized d hfin, rfl⟩
  · exact ⟨_, exec_updb_open d hopen, by rw [absorb_withErr]⟩
  · exact ⟨_, exec_finish_finalized hfin, rfl⟩
  · exact ⟨_, exec_finish_open hopen, by rw [finishMessage_withErr]⟩
  · exact ⟨_, exec_reserved _, rfl⟩
  · exact ⟨_, exec_tLoad _, rfl⟩
  · exact ⟨_, exec_roundInstr k _, by rw [roundOp_eq, roundOp_eq]⟩
  · exact ⟨_, exec_tAdd _, rfl⟩

/-- Settles O27: `ERR` is sticky, and no operation reads it. -/
theorem errIsStickyAndGatesNothing : Obligations.ErrIsStickyAndGatesNothing :=
  ⟨fun _ _ _ h hreset herr => exec_keeps_err h hreset herr, fun _ _ _ e h => exec_withErr e h⟩

/-! ### The invariant of observation points -/

/-- The invariant speaks neither of the waiting words nor of `ERR`. -/
theorem observationInv_withCmdsErr {s : State} (c : List CmdWord) (e : BitVec 2) (h : ObservationInv s) :
    ObservationInv { s with cmds := c, err := e } :=
  ⟨h.storage, h.idle, h.wholeBytes, h.pending, h.noDigest, h.noPending⟩

/-- The reset values meet the invariant (70_reset_and_hazards.md R230). -/
theorem observationInv_resetRegisters (s : State) : ObservationInv (resetRegisters s) where
  storage := ⟨Memory.wf_nil 64, Memory.wf_nil 16⟩
  idle := rfl
  wholeBytes := rfl
  pending := by simp
  noDigest _ := rfl
  noPending _ := rfl

/-- A byte absorbed moves `BUFLEN` and `BITCNT div 8` on together, also where both wrap (10_state.md R37). -/
theorem observationInv_absorb (d : Byte) {s : State} (hopen : s.fin = false) (h : ObservationInv s) :
    ObservationInv (absorb d s) := by
  obtain ⟨⟨hbuf, hdigest⟩, hidle, hwhole, hpending, hno, -⟩ := h
  have h8 : BitVec.toNat (8 : Count) = 8 := rfl
  have h1 : BitVec.toNat (1 : BitVec 6) = 1 := rfl
  constructor
  case storage =>
    rw [StorageOk, absorb_buf, absorb_digest]
    exact ⟨Memory.wf_write d s.buflen.isLt hbuf, hdigest⟩
  case idle => exact absorb_seq_idle d hidle
  case wholeBytes =>
    rw [absorb_bitcnt, BitVec.toNat_add, h8]
    omega
  case pending =>
    rw [absorb_bitcnt, absorb_buflen, BitVec.toNat_add, BitVec.toNat_add, h8, h1]
    omega
  case noDigest =>
    rw [digestBytes, absorb_digest]
    exact fun _ => hno hopen
  case noPending => simp [hopen]

theorem observationInv_absorbAll (ds : List Byte) {s : State} (hopen : s.fin = false) (h : ObservationInv s) :
    ObservationInv (absorbAll ds s) := by
  induction ds generalizing s with
  | nil => exact h
  | cons d ds ih => exact ih (by rw [absorb_fin, hopen]) (observationInv_absorb d hopen h)

/-- `FINISH` absorbs its bytes, which leaves no byte pending, and stores the digest within its space. -/
theorem observationInv_finishMessage {s : State} (hopen : s.fin = false) (h : ObservationInv s) :
    ObservationInv (finishMessage s) := by
  obtain ⟨⟨hbuf, hdigest⟩, hidle, hwhole, hpending, -, -⟩ := observationInv_absorbAll (finishBytes s) hopen h
  obtain ⟨-, -, -, -, -, -, hbuflen, -⟩ := finishMessage_fields s
  exact ⟨⟨hbuf, wf_storeDigest _ hdigest⟩, hidle, hwhole, hpending, nofun, fun _ => hbuflen⟩

/-- Every command keeps the invariant. -/
theorem exec_command_keeps_observationInv {i : Instr} {s t : State} (hi : i.format = .cmd) (h : ObservationInv s)
    (ht : exec i s = .next t) : ObservationInv t := by
  cases exec_effect ht with
  | reset => exact observationInv_resetRegisters s
  | misuse m _ => exact observationInv_withCmdsErr s.cmds (stickyErr s.err m) h
  | absorb d hopen => exact observationInv_absorb d hopen h
  | finish hopen => exact observationInv_finishMessage hopen h
  | micro hseq _ _ => simp [hi] at hseq

/-- Settles O55: between commands a step does nothing or runs a command, and every command keeps the invariant. -/
theorem observationInvariantKept : Obligations.ObservationInvariantKept := by
  intro s t h ht
  obtain ⟨-, -, hnone⟩ | ⟨i, u, hexec, ⟨c, rfl⟩, hcmd⟩ := step_cases s
  · rw [hnone] at ht
    cases ht
    exact h
  · rw [hexec] at ht
    exact exec_command_keeps_observationInv (hcmd h.idle) (observationInv_withCmdsErr c s.err h) ht

/-- Settles O56: the reset state holds the reset values. -/
theorem observationInvariantAtReset : Obligations.ObservationInvariantAtReset :=
  observationInv_resetRegisters State.reset

/-! ### The working variables between commands -/

theorem sameButWork_iff {s t : State} : SameButWork s t ↔ ∃ w n, t = { s with work := w, draws := n } :=
  ⟨fun h => ⟨_, _, h⟩, by rintro ⟨w, n, rfl⟩; rfl⟩

/-- Two such states agree on what selects a step, and on what gates a command. -/
theorem sameButWork_selectors {s t : State} (h : SameButWork s t) : t.seq = s.seq ∧ t.cmds = s.cmds ∧ t.fin = s.fin := by
  obtain ⟨w, n, rfl⟩ := sameButWork_iff.mp h
  exact ⟨rfl, rfl, rfl⟩

theorem resetRegisters_sameButWork {s t : State} (h : SameButWork s t) :
    SameButWork (resetRegisters s) (resetRegisters t) := by
  obtain ⟨w, n, rfl⟩ := sameButWork_iff.mp h
  rfl

theorem raiseMisuse_sameButWork (m : Misuse) {s t : State} (h : SameButWork s t) :
    SameButWork (raiseMisuse m s) (raiseMisuse m t) := by
  obtain ⟨w, n, rfl⟩ := sameButWork_iff.mp h
  rfl

theorem withCmds_sameButWork (c : List CmdWord) {s t : State} (h : SameButWork s t) :
    SameButWork { s with cmds := c } { t with cmds := c } := by
  obtain ⟨w, n, rfl⟩ := sameButWork_iff.mp h
  rfl

/-- A transform starts from the chaining registers: `Absorb` reads no working variable. -/
theorem absorb_sameButWork (d : Byte) {s t : State} (h : SameButWork s t) : SameButWork (absorb d s) (absorb d t) := by
  obtain ⟨w, n, rfl⟩ := sameButWork_iff.mp h
  by_cases hb : s.buflen = 63
  · rw [absorb_full d hb, absorb_full (s := { s with work := w, draws := n }) d hb]
    rfl
  · rw [absorb_room d hb, absorb_room (s := { s with work := w, draws := n }) d hb]
    rfl

theorem absorbAll_sameButWork (ds : List Byte) {s t : State} (h : SameButWork s t) :
    SameButWork (absorbAll ds s) (absorbAll ds t) := by
  induction ds generalizing s t with
  | nil => exact h
  | cons d ds ih => exact ih (absorb_sameButWork d h)

theorem finishMessage_sameButWork {s t : State} (h : SameButWork s t) :
    SameButWork (finishMessage s) (finishMessage t) := by
  have hbytes : finishBytes t = finishBytes s := by rw [h]; rfl
  obtain ⟨w, n, hall⟩ := sameButWork_iff.mp (absorbAll_sameButWork (finishBytes s) h)
  simp only [finishMessage, hbytes, hall]
  rfl

/-- A command between commands answers states that differ in the working variables only, and is idle again. -/
theorem exec_command_sameButWork {i : Instr} {s s' : State} (hi : i.format = .cmd) (hs : s.seq = .idle)
    (h : SameButWork s s') :
    ∃ t t', exec i s = .next t ∧ exec i s' = .next t' ∧ t.seq = .idle ∧ SameButWork t t' := by
  obtain ⟨-, -, hfin'⟩ := sameButWork_selectors h
  obtain rfl | ⟨d, rfl⟩ | rfl | rfl := command_cases hi
  · exact ⟨_, _, exec_reset s, exec_reset s', rfl, resetRegisters_sameButWork h⟩
  · cases hfin : s.fin with
    | true =>
      exact ⟨_, _, exec_updb_finalized d hfin, exec_updb_finalized d (hfin'.trans hfin), hs, raiseMisuse_sameButWork _ h⟩
    | false =>
      exact ⟨_, _, exec_updb_open d hfin, exec_updb_open d (hfin'.trans hfin), absorb_seq_idle d hs,
        absorb_sameButWork d h⟩
  · cases hfin : s.fin with
    | true =>
      exact ⟨_, _, exec_finish_finalized hfin, exec_finish_finalized (hfin'.trans hfin), hs, raiseMisuse_sameButWork _ h⟩
    | false =>
      exact ⟨_, _, exec_finish_open hfin, exec_finish_open (hfin'.trans hfin), finishMessage_seq_idle hs,
        finishMessage_sameButWork h⟩
  · exact ⟨_, _, exec_reserved s, exec_reserved s', hs, raiseMisuse_sameButWork _ h⟩

theorem step_sameButWork {s s' : State} (hs : s.seq = .idle) (h : SameButWork s s') :
    ∃ t t', step s = .next t ∧ step s' = .next t' ∧ t.seq = .idle ∧ SameButWork t t' := by
  obtain ⟨hseq', hcmds', -⟩ := sameButWork_selectors h
  have hs' : s'.seq = .idle := hseq'.trans hs
  cases hc : s.cmds with
  | nil => exact ⟨s, s', step_noCommand hs hc, step_noCommand hs' (hcmds'.trans hc), hs, h⟩
  | cons w ws =>
    rw [step_command hs hc, step_command hs' (hcmds'.trans hc)]
    exact exec_command_sameButWork (decodeCmd_format w) hs (withCmds_sameButWork ws h)

theorem run_sameButWork (k : Nat) {s s' : State} (hs : s.seq = .idle) (h : SameButWork s s') :
    ∃ t t', Host.Core.run Sys2Proof.core k s = .next t ∧ Host.Core.run Sys2Proof.core k s' = .next t' ∧
      SameButWork t t' := by
  induction k generalizing s s' with
  | zero => exact ⟨s, s', rfl, rfl, h⟩
  | succ k ih =>
    obtain ⟨t, t', ht, ht', hidle, hsame⟩ := step_sameButWork hs h
    rw [run_next k ht, run_next k ht']
    exact ih hidle hsame

/-- The host sees `DIGEST`, `FIN` and `ERR`, and no working variable (00_scope.md R9). -/
theorem observe_sameButWork {s t : State} (h : SameButWork s t) : observe s = observe t := by
  obtain ⟨w, n, rfl⟩ := sameButWork_iff.mp h
  rfl

/-- Settles O58, by induction on the number of steps. -/
theorem workingVariablesAreUnobservable : Obligations.WorkingVariablesAreUnobservable := by
  intro k s s' hs h
  obtain ⟨t, t', ht, ht', hsame⟩ := run_sameButWork k hs h
  exact ⟨t, t', ht, ht', hsame, observe_sameButWork hsame⟩

end Sys2Proof.Machine
end

section
/-! SUPPORT. Little-endian serialisation, bit by bit and byte by byte: the number of a byte sequence, `le32`, `LE64`,
`LE32(A) ‖ … ‖ LE32(D)`. -/

namespace Sys2Proof.Machine

/-! ### Numbers of bytes -/

/-- Bit `8j + k` of the number of a byte sequence is bit `k` of its element `j`. -/
theorem testBit_bytesNumber (bs : List Byte) (j : Nat) {k : Nat} (hk : k < 8) :
    (bytesNumber bs).testBit (8 * j + k) = (bs.getD j 0).getLsbD k := by
  induction bs generalizing j with
  | nil => simp [bytesNumber]
  | cons b bs ih =>
    rw [bytesNumber, Nat.add_comm, Nat.testBit_two_pow_mul_add _ b.isLt]
    cases j with
    | zero =>
      rw [if_pos (by omega), Nat.mul_zero, Nat.zero_add]
      rfl
    | succ j =>
      rw [if_neg (by omega), show 8 * (j + 1) + k - 8 = 8 * j + k by omega, ih j]
      rfl

/-! ### Words -/

theorem le32_eq_bytesNumber (b0 b1 b2 b3 : Byte) : le32 b0 b1 b2 b3 = BitVec.ofNat 32 (bytesNumber [b0, b1, b2, b3]) := by
  simp only [le32, bytesNumber]
  congr 1
  omega

/-- Bit `8k + b` of `le32(b0, b1, b2, b3)` is bit `b` of byte `k`. -/
theorem getLsbD_le32 (b0 b1 b2 b3 : Byte) {k b : Nat} (hk : k < 4) (hb : b < 8) :
    (le32 b0 b1 b2 b3).getLsbD (8 * k + b) = ([b0, b1, b2, b3].getD k 0).getLsbD b := by
  have hbit : 8 * k + b < 32 := by omega
  rw [le32_eq_bytesNumber, BitVec.getLsbD_ofNat, testBit_bytesNumber _ k hb, decide_eq_true hbit, Bool.true_and]

/-- Four consecutive bytes of a count, read back with `le32`, are the 32 bits they were cut from. -/
theorem le32_extractLsb' (c : Count) (n : Nat) :
    le32 (c.extractLsb' n 8) (c.extractLsb' (n + 8) 8) (c.extractLsb' (n + 16) 8) (c.extractLsb' (n + 24) 8) =
      c.extractLsb' n 32 := by
  rw [le32_eq_append, BitVec.extractLsb'_append_extractLsb'_eq_extractLsb' (show n + 24 = n + 16 + 8 from rfl),
    BitVec.extractLsb'_append_extractLsb'_eq_extractLsb' (show n + 16 = n + 8 + 8 from rfl),
    BitVec.extractLsb'_append_extractLsb'_eq_extractLsb' rfl]

/-- A word of a block that lies behind the first bytes is made of four of the bytes that follow them. -/
theorem blockOfBytes_append_right (pre bs : List Byte) (j : Fin 16) {n : Nat} (h : 4 * j.val = pre.length + n) :
    blockOfBytes (pre ++ bs) j = le32 (bs.getD n 0) (bs.getD (n + 1) 0) (bs.getD (n + 2) 0) (bs.getD (n + 3) 0) := by
  have hget (k : Nat) : (pre ++ bs).getD (pre.length + k) 0 = bs.getD k 0 := by
    rw [List.getD_append_right _ _ _ _ (Nat.le_add_right _ _), Nat.add_sub_cancel_left]
  simp only [blockOfBytes, h, Nat.add_assoc, hget]

/-! ### The digest -/

/-- Byte `k` of each of the four words that `quadBytes` lays one behind the other. -/
theorem getD_quadBytes (q : Quad) {k : Nat} (hk : k < 4) :
    (quadBytes q).getD k 0 = q.a.extractLsb' (8 * k) 8 ∧ (quadBytes q).getD (4 + k) 0 = q.b.extractLsb' (8 * k) 8 ∧
      (quadBytes q).getD (8 + k) 0 = q.c.extractLsb' (8 * k) 8 ∧
      (quadBytes q).getD (12 + k) 0 = q.d.extractLsb' (8 * k) 8 := by
  interval_cases k <;> exact ⟨rfl, rfl, rfl, rfl⟩

/-- After the store of the digest, address `x` below 16 holds byte `x` of the sixteen. -/
theorem read_storeDigest (m : Memory) (q : Quad) {x : Nat} (hx : x < 16) :
    Memory.read (storeDigest m q) x = (quadBytes q).getD x 0 := by
  rw [storeDigest_eq, Memory.read_writeBytes, if_pos (by simpa using hx), Nat.sub_zero]

/-- `DIGEST[j]` is element `j` of the sixteen bytes the host sees. -/
theorem getD_digestBytes (s : State) {j : Nat} (hj : j < 16) : (digestBytes s).getD j 0 = Memory.read s.digest j := by
  rw [List.getD_eq_getElem _ _ (by simpa [digestBytes] using hj)]
  simp [digestBytes]

end Sys2Proof.Machine
end

section
/-! PROOFS of the statements about the storage spaces (20_memory.md): the byte order of block words, of the length suffix
and of the digest, the host's view of `DIGEST`, and the bounds of both spaces. -/

namespace Sys2Proof.Machine

open Sys2Proof.Safety

/-! ### Byte order -/

/-- Settles O48: a block word is `le32` of its four bytes, whose bits `getLsbD_le32` names. -/
theorem blockWordsAreLittleEndian : Obligations.BlockWordsAreLittleEndian := by
  intro buf j k b hk hb
  rw [blockWord, getLsbD_le32 _ _ _ _ hk hb]
  interval_cases k <;> rfl

/-- Settles O16: behind 56 bytes, words 14 and 15 are `le32` of the length's low and high four bytes. -/
theorem lengthFillsTheLastTwoWords : Obligations.LengthFillsTheLastTwoWords := by
  intro pre len hpre
  have hlow := blockOfBytes_append_right pre (leBytes64 len) 14 (n := 0) (by simp [hpre])
  have hhigh := blockOfBytes_append_right pre (leBytes64 len) 15 (n := 4) (by simp [hpre])
  exact ⟨hlow.trans (le32_extractLsb' len 0), hhigh.trans (le32_extractLsb' len 32)⟩

/-- Settles O14: `FINISH` stores the sixteen bytes of the chaining registers and leaves the registers as its last
`Absorb` left them. -/
theorem digestSerialisesTheChain : Obligations.DigestSerialisesTheChain := by
  intro s hopen
  obtain ⟨-, -, -, hchain, -, hdigest, -, -⟩ := finishMessage_fields s
  refine ⟨_, exec_finish_open hopen, hchain, fun k hk => ?_⟩
  rw [hdigest, read_storeDigest _ _ (by omega), read_storeDigest _ _ (by omega), read_storeDigest _ _ (by omega),
    read_storeDigest _ _ (by omega)]
  exact getD_quadBytes _ hk

/-- Settles O35: the observed number is that of the sixteen bytes of `DIGEST`. -/
theorem hostSeesDigestBytes : Obligations.HostSeesDigestBytes := by
  intro s j k hj hk
  have hbit : 8 * j + k < 128 := by omega
  rw [observe, BitVec.getLsbD_ofNat, decide_eq_true hbit, Bool.true_and, testBit_bytesNumber _ j hk,
    getD_digestBytes s hj]

/-! ### Bounds -/

/-- `Absorb` writes to `BUF` at `BUFLEN`, below 64 by its width, and nowhere else (20_memory.md R57). -/
theorem storageOk_absorb (d : Byte) {s : State} (h : StorageOk s) : StorageOk (absorb d s) := by
  obtain ⟨hbuf, hdigest⟩ := h
  rw [StorageOk, absorb_buf, absorb_digest]
  exact ⟨Memory.wf_write d s.buflen.isLt hbuf, hdigest⟩

theorem storageOk_finishMessage {s : State} (h : StorageOk s) : StorageOk (finishMessage s) := by
  obtain ⟨hbuf, hdigest⟩ := h
  obtain ⟨-, -, -, -, hbuf', hdigest', -, -⟩ := finishMessage_fields s
  rw [StorageOk, hbuf', hdigest']
  exact ⟨absorbAll_buf_wf _ hbuf, wf_storeDigest _ hdigest⟩

/-- Every instruction, in every state, keeps both spaces canonical and within their sizes. -/
theorem exec_keeps_storageOk {i : Instr} {s t : State} (h : StorageOk s) (ht : exec i s = .next t) : StorageOk t := by
  cases exec_effect ht with
  | reset => exact ⟨Memory.wf_nil 64, Memory.wf_nil 16⟩
  | misuse => exact h
  | absorb d _ => exact storageOk_absorb d h
  | finish _ => exact storageOk_finishMessage h
  | micro _ hframe _ =>
    rw [hframe]
    exact h

/-- Settles O57: a step does nothing or runs an instruction, and every instruction keeps the spaces in bounds. -/
theorem storageStaysInBounds : Obligations.StorageStaysInBounds := by
  intro s t h ht
  obtain ⟨-, -, hnone⟩ | ⟨i, u, hexec, ⟨c, rfl⟩, -⟩ := step_cases s
  · rw [hnone] at ht
    cases ht
    exact h
  · rw [hexec] at ht
    exact exec_keeps_storageOk (s := { s with cmds := c }) h ht

end Sys2Proof.Machine
end

section
/-! SUPPORT. The decoder on words given by their fields (30_encoding.md R70, R73): a word is its fields, each code of
`op` and `ph` has its equation, and what decodes is said once. -/

namespace Sys2Proof.Machine

open Sys2Proof.Safety

/-! ### Fields -/

theorem op_cmdWord (op : BitVec 2) (d : Byte) : CmdWord.op (cmdWord op d) = op := BitVec.extractLsb'_append_eq_left

theorem data_cmdWord (op : BitVec 2) (d : Byte) : CmdWord.data (cmdWord op d) = d := BitVec.extractLsb'_append_eq_right

theorem cmdWord_op_data (w : CmdWord) : cmdWord w.op w.data = w :=
  (BitVec.extractLsb'_append_extractLsb'_eq_extractLsb' rfl).trans BitVec.extractLsb'_eq_self

theorem ph_seqWord (ph : BitVec 2) (rnd : BitVec 6) : SeqWord.ph (seqWord ph rnd) = ph :=
  BitVec.extractLsb'_append_eq_left

theorem rnd_seqWord (ph : BitVec 2) (rnd : BitVec 6) : SeqWord.rnd (seqWord ph rnd) = rnd :=
  BitVec.extractLsb'_append_eq_right

theorem seqWord_ph_rnd (w : SeqWord) : seqWord w.ph w.rnd = w :=
  (BitVec.extractLsb'_append_extractLsb'_eq_extractLsb' rfl).trans BitVec.extractLsb'_eq_self

theorem twoBit_cases (b : BitVec 2) : b = 0 ∨ b = 1 ∨ b = 2 ∨ b = 3 := by
  revert b
  decide

/-! ### Command words (30_encoding.md R71) -/

theorem decodeCmd_reset (d : Byte) : decodeCmd (cmdWord 0 d) = .reset := by
  rw [decodeCmd, op_cmdWord]
  rfl

theorem decodeCmd_updb (d : Byte) : decodeCmd (cmdWord 1 d) = .updb d := by
  rw [decodeCmd, op_cmdWord, data_cmdWord]
  rfl

theorem decodeCmd_finish (d : Byte) : decodeCmd (cmdWord 2 d) = .finish := by
  rw [decodeCmd, op_cmdWord]
  rfl

theorem decodeCmd_reserved (d : Byte) : decodeCmd (cmdWord 3 d) = .reserved := by
  rw [decodeCmd, op_cmdWord]
  rfl

theorem canonicalWord_updb (d : Byte) : canonicalWord (.cmd (cmdWord 1 d)) = .cmd (cmdWord 1 d) :=
  if_pos (op_cmdWord 1 d)

/-- The ignored bits of a command word other than `UPDB`'s are its `data` (30_encoding.md R72). -/
theorem canonicalWord_cmd {op : BitVec 2} (h : op ≠ 1) (d : Byte) :
    canonicalWord (.cmd (cmdWord op d)) = .cmd (cmdWord op 0) := by
  rw [canonicalWord, op_cmdWord, if_neg h]

/-- A command's word is any word it is decoded from, the ignored bits cleared. -/
theorem encode_decodeCmd (w : CmdWord) : encode (decodeCmd w) = canonicalWord (.cmd w) := by
  obtain ⟨op, d, rfl⟩ : ∃ op d, w = cmdWord op d := ⟨_, _, (cmdWord_op_data w).symm⟩
  obtain rfl | rfl | rfl | rfl := twoBit_cases op
  · rw [decodeCmd_reset, canonicalWord_cmd (by decide)]
    rfl
  · rw [decodeCmd_updb, canonicalWord_updb]
    rfl
  · rw [decodeCmd_finish, canonicalWord_cmd (by decide)]
    rfl
  · rw [decodeCmd_reserved, canonicalWord_cmd (by decide)]
    rfl

/-! ### Sequencer words (30_encoding.md R74, R76) -/

theorem decodeSeq_idle (rnd : BitVec 6) :
    decodeSeq (seqWord 0 rnd) = if rnd = 0 then .error .idle else .error .unreachableSeq := by
  rw [decodeSeq, ph_seqWord, rnd_seqWord]
  rfl

theorem decodeSeq_load (rnd : BitVec 6) :
    decodeSeq (seqWord 1 rnd) = if rnd = 0 then .ok .tLoad else .error .unreachableSeq := by
  rw [decodeSeq, ph_seqWord, rnd_seqWord]
  rfl

theorem decodeSeq_add (rnd : BitVec 6) :
    decodeSeq (seqWord 3 rnd) = if rnd = 0 then .ok .tAdd else .error .unreachableSeq := by
  rw [decodeSeq, ph_seqWord, rnd_seqWord]
  rfl

/-- The sequencer words that decode are those of `T.LOAD`, of the 64 rounds and of `T.ADD`. -/
theorem decodeSeq_cases {w : SeqWord} {i : Instr} (h : decodeSeq w = .ok i) :
    (w = seqWord 1 0 ∧ i = .tLoad) ∨ (∃ k, w = seqWord 2 (BitVec.ofFin k) ∧ i = roundInstr k) ∨
      (w = seqWord 3 0 ∧ i = .tAdd) := by
  obtain ⟨ph, rnd, rfl⟩ : ∃ ph rnd, w = seqWord ph rnd := ⟨_, _, (seqWord_ph_rnd w).symm⟩
  obtain rfl | rfl | rfl | rfl := twoBit_cases ph
  · rw [decodeSeq_idle] at h
    split at h <;> cases h
  · rw [decodeSeq_load] at h
    split at h <;> cases h
    next h0 => exact .inl ⟨by rw [h0], rfl⟩
  · cases (decode_roundWord rnd.toFin).symm.trans h
    exact .inr (.inl ⟨rnd.toFin, rfl, rfl⟩)
  · rw [decodeSeq_add] at h
    split at h <;> cases h
    next h0 => exact .inr (.inr ⟨by rw [h0], rfl⟩)

/-! ### The step -/

/-- With the sequencer idle, a step runs what the oldest waiting word decodes to. -/
theorem step_idle_cons {s : State} (hs : s.seq = .idle) (w : CmdWord) (ws : List CmdWord) :
    step { s with cmds := w :: ws } = exec (decodeCmd w) { s with cmds := ws } :=
  step_command (s := { s with cmds := w :: ws }) hs rfl

/-! ### Decoding and encoding -/

theorem decode_encode (i : Instr) : decode (encode i) = .ok i := by
  cases hf : i.format with
  | cmd =>
    obtain rfl | ⟨d, rfl⟩ | rfl | rfl := command_cases hf
    · exact congrArg _ (decodeCmd_reset 0)
    · exact congrArg _ (decodeCmd_updb d)
    · exact congrArg _ (decodeCmd_finish 0)
    · exact congrArg _ (decodeCmd_reserved 0)
  | seq =>
    obtain rfl | ⟨k, rfl⟩ | rfl := micro_cases hf
    · rfl
    · rw [encode_roundInstr]
      exact decode_roundWord k
    · rfl

/-- An instruction's word is the word it was decoded from, the ignored bits cleared. -/
theorem encode_of_decode {c : CodeWord} {i : Instr} (h : decode c = .ok i) : encode i = canonicalWord c := by
  cases c with
  | cmd w =>
    obtain rfl : decodeCmd w = i := by simpa [decode] using h
    exact encode_decodeCmd w
  | seq w =>
    obtain ⟨rfl, rfl⟩ | ⟨k, rfl, rfl⟩ | ⟨rfl, rfl⟩ := decodeSeq_cases h
    · rfl
    · exact encode_roundInstr k
    · rfl

/-- The ignored bits do not matter to the decoder (30_encoding.md R72). -/
theorem decode_canonicalWord (c : CodeWord) : decode (canonicalWord c) = decode c := by
  cases c with
  | cmd w => rw [← encode_decodeCmd, decode_encode, decode]
  | seq w => rfl

end Sys2Proof.Machine
end

section
/-! SUPPORT. The assembler on a command's text (30_encoding.md R80): the mnemonic and the two hex digits. -/

namespace Sys2Proof.Machine

theorem hexValue_hexDigitUpper {n : Nat} (h : n < 16) : hexValue (hexDigitUpper n) = some n := by
  interval_cases n <;> rfl

theorem hexDigitUpper_ends_no_word {n : Nat} (h : n < 16) : ¬(hexDigitUpper n = ' ' ∨ hexDigitUpper n = ';') := by
  interval_cases n <;> decide

theorem takeWord_eq_self {w : List Char} (h : ∀ c ∈ w, ¬(c = ' ' ∨ c = ';')) : takeWord w = (w, []) := by
  induction w with
  | nil => rfl
  | cons c cs ih =>
    obtain ⟨hc, hcs⟩ := List.forall_mem_cons.mp h
    rw [takeWord, if_neg hc, ih hcs]

theorem byteNumeral_hexDigits (d : Byte) :
    byteNumeral ['0', 'x', hexDigitUpper (d.toNat / 16), hexDigitUpper (d.toNat % 16)] = some d := by
  have hd := d.isLt
  have hhigh := hexValue_hexDigitUpper (n := d.toNat / 16) (by omega)
  have hlow := hexValue_hexDigitUpper (n := d.toNat % 16) (by omega)
  have hsum : d.toNat / 16 * 16 + d.toNat % 16 = d.toNat := by omega
  simp [byteNumeral, numeral, hhigh, hlow, hsum, hd]

theorem byteOperand_hexDigits (d : Byte) :
    byteOperand ['0', 'x', hexDigitUpper (d.toNat / 16), hexDigitUpper (d.toNat % 16)] = some (d, []) := by
  have hhigh := hexDigitUpper_ends_no_word (n := d.toNat / 16) (by omega)
  have hlow := hexDigitUpper_ends_no_word (n := d.toNat % 16) (by omega)
  have hword : takeWord ['0', 'x', hexDigitUpper (d.toNat / 16), hexDigitUpper (d.toNat % 16)] = (_, []) :=
    takeWord_eq_self (by simpa using ⟨not_or.mp hhigh, not_or.mp hlow⟩)
  have hquote : '0' ≠ singleQuote := by decide
  simp [byteOperand, hquote, hword, byteNumeral_hexDigits]

theorem assembleLine_updb {l rest : List Char} {b : Byte} (h : byteOperand (skipBlanks l) = some (b, rest)) :
    assembleLine ('U' :: 'P' :: 'D' :: 'B' :: ' ' :: l) = endOfLine (.command (.updb b)) rest := by
  simp [assembleLine, skipBlanks, takeWord, h]

theorem assembleLine_updbText (d : Byte) :
    assembleLine
        ['U', 'P', 'D', 'B', ' ', '0', 'x', hexDigitUpper (d.toNat / 16), hexDigitUpper (d.toNat % 16)] =
      .ok (.command (.updb d)) :=
  assembleLine_updb (l := ['0', 'x', _, _]) (byteOperand_hexDigits d)

theorem instrText_micro {i : Instr} (h : i.format = .seq) : instrText i = none := by
  obtain rfl | ⟨k, rfl⟩ | rfl := micro_cases h
  · rfl
  · revert k
    decide
  · rfl

end Sys2Proof.Machine
end

section
/-! PROOFS of the encoding statements (30_encoding.md): decoding and encoding agree, the ignored bits, the texts. -/

namespace Sys2Proof.Machine

/-- Settles O50: the decoder inverts the encoder, and reads a word as it reads the word with the ignored bits cleared,
which is the instruction's. -/
theorem decodeAndEncodeAgree : Obligations.DecodeAndEncodeAgree := by
  refine ⟨decode_encode, fun c i => ⟨fun h => (encode_of_decode h).symm, fun h => ?_⟩, fun w => ?_⟩
  · rw [← decode_canonicalWord, h, decode_encode]
  · exact ⟨decodeCmd w, rfl, by rw [Instr.issuable, decodeCmd_format]; rfl⟩

/-- Settles O49: each word is given by its fields, and its code's decoding is cited. -/
theorem tableWordsDecode : Obligations.TableWordsDecode := by
  exact ⟨congrArg _ (decodeCmd_reset 0), congrArg _ (decodeCmd_reset 0xFF), congrArg _ (decodeCmd_updb 0x61),
    congrArg _ (decodeCmd_finish 0), congrArg _ (decodeCmd_reserved 0xFF), decode_encode .tLoad, decode_roundWord 15,
    decode_roundWord 19, decode_roundWord 41, decode_roundWord 63, decode_encode .tAdd, decodeSeq_idle 0,
    decodeSeq_load 1⟩

/-- Settles O51: a step with the sequencer idle runs what its command word decodes to, and `op` alone tells `RESET` and
`FINISH`. -/
theorem ignoredDataBitsChangeNothing : Obligations.IgnoredDataBitsChangeNothing := by
  intro d s ws hs
  refine ⟨?_, ?_, ?_⟩
  · rw [step_idle_cons hs, decodeCmd_reset]
  · rw [step_idle_cons hs, decodeCmd_finish]
  · rw [step_idle_cons hs, decodeCmd_updb]

/-- Settles O52, for each command that has a text. -/
theorem commandTextAssembles : Obligations.CommandTextAssembles := by
  intro i l h
  cases hf : i.format with
  | cmd =>
    obtain rfl | ⟨d, rfl⟩ | rfl | rfl := command_cases hf
    · cases h
      rfl
    · cases h
      exact assembleLine_updbText d
    · cases h
      rfl
    · cases h
  | seq =>
    rw [instrText_micro hf] at h
    cases h

end Sys2Proof.Machine
end

section
/-! SUPPORT. The compression engine in the words of the statements: bits of the mixing functions and of the rotation,
the decode table against the operand functions, and the path of `SEQ` (40_transform.md R103 to R109, R119). -/

namespace Sys2Proof.Machine

open Sys2Proof.Safety

/-! ### Mixing and rotation, bit by bit -/

theorem getLsbD_mixF (x y z : Word) {k : Nat} (hk : k < 32) :
    (mixF x y z).getLsbD k = (if x.getLsbD k then y.getLsbD k else z.getLsbD k) := by
  simp only [mixF, BitVec.getLsbD_or, BitVec.getLsbD_and, BitVec.getLsbD_not, hk]
  cases x.getLsbD k <;> simp

/-- Stage 2 is stage 1 with the selector last (40_transform.md R103, R104). -/
theorem mixG_eq_mixF (x y z : Word) : mixG x y z = mixF z x y := by
  rw [mixG, mixF, BitVec.and_comm x z, BitVec.and_comm y]

theorem getLsbD_mixH (x y z : Word) (k : Nat) :
    (mixH x y z).getLsbD k = ((x.getLsbD k ^^ y.getLsbD k) ^^ z.getLsbD k) := by
  simp [mixH]

theorem getLsbD_mixI (x y z : Word) {k : Nat} (hk : k < 32) :
    (mixI x y z).getLsbD k = (y.getLsbD k ^^ (x.getLsbD k || !z.getLsbD k)) := by
  simp [mixI, hk]

/-- Below the word's width the model's rotation is the library's. -/
theorem rotl32_eq_rotateLeft (x : Word) {s : Nat} (hs : s < 32) : rotl32 x s = x.rotateLeft s :=
  (BitVec.rotateLeft_eq_rotateLeftAux_of_lt hs).symm

/-! ### The mix of each stage -/

theorem mix_stageF {i : Fin 64} (h : i.val < 16) : mix i = mixF := by
  funext x y z
  simp [mix, h]

theorem mix_stageG {i : Fin 64} (h : 16 ≤ i.val ∧ i.val < 32) : mix i = mixG := by
  funext x y z
  simp [mix, h, show ¬i.val < 16 by omega]

theorem mix_stageH {i : Fin 64} (h : 32 ≤ i.val ∧ i.val < 48) : mix i = mixH := by
  funext x y z
  simp [mix, h, show ¬i.val < 16 by omega, show ¬i.val < 32 by omega]

theorem mix_stageI {i : Fin 64} (h : 48 ≤ i.val) : mix i = mixI := by
  funext x y z
  simp [mix, show ¬i.val < 16 by omega, show ¬i.val < 32 by omega, show ¬i.val < 48 by omega]

/-! ### The decode table (30_encoding.md section 4) -/

theorem rowsF_stage : ∀ r ∈ rowsF, r.i.val < 16 := by decide

theorem rowsG_stage : ∀ r ∈ rowsG, 16 ≤ r.i.val ∧ r.i.val < 32 := by decide

theorem rowsH_stage : ∀ r ∈ rowsH, 32 ≤ r.i.val ∧ r.i.val < 48 := by decide

theorem rowsI_stage : ∀ r ∈ rowsI, 48 ≤ r.i.val := by decide

theorem rows_match_operands : ∀ r ∈ rowsF ++ rowsG ++ rowsH ++ rowsI,
    wordIndex r.i = r.g ∧ shiftAmount r.i = r.s ∧ roundConstant r.i = r.k ∧ roundInstr r.i = r.instr := by
  decide

/-- The block word indices of a stage step by an odd number modulo 16, so no two agree (40_transform.md R107). -/
theorem wordIndex_stage_injective {stage : Nat} (h : stage < 4) :
    Function.Injective fun pos : Fin 16 => wordIndex (Fin.ofNat 64 (16 * stage + pos.val)) := by
  interval_cases stage <;> decide

/-- The phase `ROUND` is 2, so the word of round `i` is `0x80 + i` (30_encoding.md R73, R74). -/
theorem seqWord_round (i : Fin 64) : seqWord 2 (BitVec.ofFin i) = BitVec.ofNat 8 (0x80 + i.val) := by
  revert i; decide

theorem seqAfterRound_eq (i : Fin 64) : seqAfterRound i = if i < 63 then .round (i + 1) else .add := by
  revert i; decide

theorem seqAfterRound_of_lt {i : Fin 64} (h : i < 63) : seqAfterRound i = .round (i + 1) := by
  rw [seqAfterRound_eq, if_pos h]

/-- A row of the decode table, in any stage: its word, and its round with the row's operands, given the stage's mix and
the next value of `SEQ` (40_transform.md R110). -/
theorem tableRow_exec {r : RoundRow} {f : Word → Word → Word → Word} {next : Seq}
    (hr : r ∈ rowsF ++ rowsG ++ rowsH ++ rowsI) (hmix : mix r.i = f) (hnext : seqAfterRound r.i = next) :
    encode r.instr = .seq (BitVec.ofNat 8 (0x80 + r.i.val)) ∧
      ∀ s : State, exec r.instr s = .next (afterRound r (f s.work.b s.work.c s.work.d) next s) := by
  obtain ⟨hg, hs, hk, hinstr⟩ := rows_match_operands r hr
  rw [← hinstr, encode_roundInstr, seqWord_round]
  refine ⟨rfl, fun s => ?_⟩
  rw [exec_roundInstr, roundOp_eq, roundFn, hmix, hnext, hg, hs, hk]
  rfl

/-! ### The path of `SEQ` -/

theorem seqPath_round (i : Fin 64) : seqPath (i.val + 1) = .round i := by
  simp [seqPath, show i.val < 64 from i.isLt]

theorem seqAfterRound_eq_seqPath (i : Fin 64) : seqAfterRound i = seqPath (i.val + 2) := by
  revert i; decide

theorem seqPath_busy : ∀ j < 66, seqPath j ≠ .idle := by decide

/-- A micro-operation moves `SEQ` one place along its path, whatever the data. -/
theorem microStep_seqPath {j : Nat} (hj : j < 66) {s : State} (hs : s.seq = seqPath j) :
    (microStep s).seq = seqPath (j + 1) := by
  obtain rfl | ⟨i, rfl⟩ | rfl : j = 0 ∨ (∃ i : Fin 64, j = i.val + 1) ∨ j = 65 := by
    by_cases hi : 1 ≤ j ∧ j ≤ 64
    · exact .inr (.inl ⟨⟨j - 1, by omega⟩, by simp; omega⟩)
    · omega
  · rw [microStep_load hs]
    rfl
  · rw [microStep_round (hs.trans (seqPath_round i)), roundOp_eq]
    exact seqAfterRound_eq_seqPath i
  · rw [microStep_add hs]
    rfl

/-- From place `j` of the path, the steps of the machine are those of the sequencer, to the path's end. -/
theorem run_along_seqPath (k : Nat) {j : Nat} (hjk : j + k ≤ 66) {s : State} (hs : s.seq = seqPath j) :
    Host.Core.run core k s = .next (runSequencer k s) ∧ (runSequencer k s).seq = seqPath (j + k) := by
  induction k generalizing j s with
  | zero => exact ⟨rfl, hs⟩
  | succ k ih =>
    have hbusy : s.seq ≠ .idle := hs ▸ seqPath_busy j (by omega)
    have hnext := microStep_seqPath (by omega) hs
    obtain ⟨hrun, hseq⟩ := ih (by omega) hnext
    exact ⟨(run_next k (step_micro hbusy)).trans hrun, by rw [runSequencer, hseq]; congr 1; omega⟩

end Sys2Proof.Machine
end

section
/-! PROOFS of the statements about the compression engine (40_transform.md): the path of `SEQ`, the 66 micro-operations
as `Transform`, each micro-operation, the mixing functions, the rotation and the operand tables. -/

namespace Sys2Proof.Machine

open Sys2Proof.Safety

/-! ### A whole transform -/

/-- Settles O42: (`LOAD`, 0) is place 0 of the path. -/
theorem sequencerTakesItsOnePath : Obligations.SequencerTakesItsOnePath := by
  intro s k hs hk
  obtain ⟨hrun, hseq⟩ := run_along_seqPath k (j := 0) (by omega) hs
  exact ⟨_, hrun, by rw [hseq, Nat.zero_add]⟩

/-- Settles O43: the 66 steps are the run of the sequencer that a command starts, which is `Transform`. -/
theorem microOperationsComputeTransform : Obligations.MicroOperationsComputeTransform := by
  intro s hs
  obtain ⟨hrun, -⟩ := run_along_seqPath 66 (j := 0) (by omega) hs
  have hload : { s with seq := .load } = s := by rw [← hs]
  have hsame : runSequencer 66 s = runTransform s := by rw [runTransform, hload, transformSteps]
  rw [hsame, runTransform_eq] at hrun
  exact ⟨_, hrun, rfl⟩

/-! ### The micro-operations -/

/-- Settles O36. -/
theorem tLoadCopiesTheChain : Obligations.TLoadCopiesTheChain :=
  ⟨rfl, exec_tLoad⟩

/-- Settles O37: the rows of stage 1 mix by `F`, and none is round 63. -/
theorem roundFMixesAndRotates : Obligations.RoundFMixesAndRotates := by
  intro r hr
  have hi := rowsF_stage r hr
  exact tableRow_exec (f := mixF) (by simp [hr]) (mix_stageF hi) (seqAfterRound_of_lt (by omega))

/-- Settles O38: the rows of stage 2 mix by `G`, and none is round 63. -/
theorem roundGMixesAndRotates : Obligations.RoundGMixesAndRotates := by
  intro r hr
  have hi := rowsG_stage r hr
  exact tableRow_exec (f := mixG) (by simp [hr]) (mix_stageG hi) (seqAfterRound_of_lt (by omega))

/-- Settles O39: the rows of stage 3 mix by `H`, and none is round 63. -/
theorem roundHMixesAndRotates : Obligations.RoundHMixesAndRotates := by
  intro r hr
  have hi := rowsH_stage r hr
  exact tableRow_exec (f := mixH) (by simp [hr]) (mix_stageH hi) (seqAfterRound_of_lt (by omega))

/-- Settles O40: the rows of stage 4 mix by `I`. -/
theorem roundIMixesAndRotates : Obligations.RoundIMixesAndRotates := by
  intro r hr
  exact tableRow_exec (f := mixI) (by simp [hr]) (mix_stageI (rowsI_stage r hr)) (seqAfterRound_eq r.i)

/-- Settles O41: the sums are `addQuads`, field by field. -/
theorem tAddAddsIntoTheChain : Obligations.TAddAddsIntoTheChain :=
  ⟨rfl, fun s => ⟨_, exec_tAdd s, rfl⟩⟩

/-- Settles O44, for each kind of micro-operation. -/
theorem microOperationsTouchOnlyTheEngine : Obligations.MicroOperationsTouchOnlyTheEngine := by
  intro i s hi
  obtain rfl | ⟨k, rfl⟩ | rfl := micro_cases hi
  · exact ⟨_, exec_tLoad s, rfl⟩
  · exact ⟨_, exec_roundInstr k s, by rw [roundOp_eq]⟩
  · exact ⟨_, exec_tAdd s, rfl⟩

/-! ### Operands -/

/-- Settles O45. -/
theorem mixingFunctionsBitByBit : Obligations.MixingFunctionsBitByBit := by
  intro x y z k hk
  exact ⟨getLsbD_mixF x y z hk, mixG_eq_mixF x y z ▸ getLsbD_mixF z x y hk, getLsbD_mixH x y z k,
    getLsbD_mixI x y z hk⟩

/-- Settles O46: bit `k` lands at `k + s`, or wraps to `k + s - 32`, which is below `s`. -/
theorem rotationMovesEachBit : Obligations.RotationMovesEachBit := by
  intro x s k _ hs hk
  rw [rotl32_eq_rotateLeft x (by omega), BitVec.getLsbD_rotateLeft_of_le (by omega)]
  by_cases hwrap : k + s < 32
  · rw [Nat.mod_eq_of_lt hwrap]
    simp [hwrap]
  · have hmod : (k + s) % 32 = k + s - 32 := by omega
    have hsource : 32 - s + (k + s - 32) = k := by omega
    simp [hmod, hsource, show k + s - 32 < s by omega]

/-- Settles O47: the table is compared row by row, and a stage's sixteen indices, no two equal, are all sixteen. -/
theorem roundOperandsMatchTheTables : Obligations.RoundOperandsMatchTheTables := by
  refine ⟨rows_match_operands, fun stage hstage j => ?_⟩
  have hbij := Finite.injective_iff_bijective.mp (wordIndex_stage_injective hstage)
  exact hbij.existsUnique j

end Sys2Proof.Machine
end

section
/-! SUPPORT. The block-wise `Update` of 41_update.md R144 is `Absorb` byte by byte: the counter added up at once is the
counter added up by byte, and each pass of the loop is `Absorb` of the bytes it takes. -/

namespace Sys2Proof.Machine

open Sys2Proof.Safety

/-! ### Counting bytes -/

/-- The first line of `Update(m)` for `n = |m|`: `n` bytes counted and none stored (41_update.md R144). -/
def countBytes (n : Nat) (s : State) : State := { s with bitcnt := s.bitcnt + BitVec.ofNat 64 (8 * n) }

@[simp] theorem countBytes_buflen (n : Nat) (s : State) : (countBytes n s).buflen = s.buflen := rfl

/-- Two runs of bytes counted one after the other, and both at once. -/
theorem add_ofNat_bytes (c : Count) (m n : Nat) :
    c + BitVec.ofNat 64 (8 * (m + n)) = c + BitVec.ofNat 64 (8 * m) + BitVec.ofNat 64 (8 * n) := by
  rw [Nat.mul_add, BitVec.ofNat_add, BitVec.add_assoc]

/-! ### The loop -/

/-- The last pass of the loop is `Absorb` of bytes that leave room in the buffer. -/
theorem updateLoop_room (fuel : Nat) {m : List Byte} {s : State} (h : s.buflen.toNat + m.length < 64) :
    updateLoop (fuel + 1) m (countBytes m.length s) = absorbAll m s := by
  rw [updateLoop, if_neg (by rw [countBytes_buflen]; omega), absorbAll_room m s h]
  rfl

/-- Every other pass is `Absorb` of the bytes that fill the buffer. -/
theorem updateLoop_fill (fuel : Nat) {ds : List Byte} (es : List Byte) {s : State}
    (h : s.buflen.toNat + ds.length = 64) :
    updateLoop (fuel + 1) (ds ++ es) (countBytes (ds ++ es).length s) =
      updateLoop fuel es (countBytes es.length (absorbAll ds s)) := by
  have htake : ds.length = 64 - s.buflen.toNat := by omega
  rw [updateLoop, if_pos (by rw [countBytes_buflen, List.length_append]; omega), absorbAll_fill ds s h]
  simp only [countBytes_buflen, List.take_left' htake, List.drop_left' htake, runTransform_eq]
  simp only [countBytes, List.length_append, add_ofNat_bytes]

/-- With the bytes counted beforehand, the loop is `Absorb` of each byte. -/
theorem updateLoop_countBytes {fuel : Nat} {m : List Byte} (h : m.length < fuel) (s : State) :
    updateLoop fuel m (countBytes m.length s) = absorbAll m s := by
  induction fuel generalizing m s with
  | zero => omega
  | succ fuel ih =>
    by_cases hroom : s.buflen.toNat + m.length < 64
    · exact updateLoop_room fuel hroom
    · have hbuflen := s.buflen.isLt
      obtain ⟨ds, es, rfl, hds⟩ : ∃ ds es, m = ds ++ es ∧ ds.length = 64 - s.buflen.toNat :=
        ⟨_, _, (List.take_append_drop _ m).symm, List.length_take_of_le (by omega)⟩
      rw [List.length_append] at h
      rw [updateLoop_fill fuel es (by omega), ih (by omega), absorbAll_append]

/-- The block-wise `Update` is `Absorb` of each byte, from every state. -/
theorem updateSlice_eq_absorbAll (m : List Byte) (s : State) : updateSlice m s = absorbAll m s :=
  updateLoop_countBytes (Nat.lt_succ_self m.length) s

/-! ### Slices -/

/-- The commands of a slice absorb its bytes. -/
theorem runProgram_update (m : List Byte) {s : State} (hr : Ready s) (hf : s.fin = false) :
    runProgram (m.map .updb) s = .next (absorbAll m s) := by
  rw [← List.append_nil (m.map Instr.updb), runProgram_updates m [] hr hf, runProgram_nil]

/-- Slices absorbed one after another are absorbed as one. -/
theorem foldl_absorbAll (chunks : List (List Byte)) (s : State) :
    chunks.foldl (fun u m => absorbAll m u) s = absorbAll chunks.flatten s := by
  induction chunks generalizing s with
  | nil => rfl
  | cons m chunks ih => rw [List.foldl_cons, ih, List.flatten_cons, absorbAll_append]

/-- Fewer than 64 bytes absorbed with none pending leave `A` to `D` and are the pending bytes. -/
theorem absorbAll_short_view {m : List Byte} {s : State} (hm : m.length < 64) (hs : s.buflen = 0) :
    (absorbAll m s).chain = s.chain ∧ pendingBytes (absorbAll m s) = m := by
  obtain ⟨hchain, hpending⟩ := absorbAll_view m s
  rw [pendingBytes_eq_nil hs, List.nil_append, Nat.div_eq_of_lt hm] at hchain hpending
  exact ⟨hchain, hpending⟩

end Sys2Proof.Machine
end

section
/-! PROOFS of the statements about the update path (41_update.md): one `UPDB`, the counter, the block boundary, slices
and chunks. -/

namespace Sys2Proof.Machine

/-! ### One byte -/

/-- Settles O4, for a byte with room and for the byte that completes a block. -/
theorem updbAbsorbsItsByte : Obligations.UpdbAbsorbsItsByte := by
  intro d s hopen
  refine ⟨_, exec_updb_open d hopen, ?_, fun a ha => ?_, fun hroom => ?_, fun hfull => ?_⟩
  · rw [absorb_buf, absorbAddress, Memory.read_write_same]
  · rw [absorb_buf]
    exact Memory.read_write_other _ _ ha
  · rw [absorb_room d hroom]
  · rw [absorb_full d hfull]

/-- Settles O5: the halves of the sum (10_state.md R25), with the carry of a byte from the last low half only. -/
theorem updbCarriesIntoTheHighHalf : Obligations.UpdbCarriesIntoTheHighHalf := by
  intro d s hopen hwhole
  have hlo : bitcntLo (s.bitcnt + 8) = bitcntLo s.bitcnt + 8 := bitcntLo_add s.bitcnt 8
  have hhi : bitcntHi (s.bitcnt + 8) =
      bitcntHi s.bitcnt + (if 2 ^ 32 ≤ (bitcntLo s.bitcnt).toNat + 8 then 1 else 0) := bitcntHi_add s.bitcnt 8
  refine ⟨_, exec_updb_open d hopen, by rw [absorb_bitcnt, hlo], ?_⟩
  rw [absorb_bitcnt, hhi]
  simp only [carry_of_byte_iff hwhole]
  split
  · rfl
  · exact BitVec.add_zero _

/-- Settles O7: `Absorb` adds 8 modulo 2^64 and writes neither `ERR` nor `FIN`. -/
theorem counterWrapsWithoutFault : Obligations.CounterWrapsWithoutFault := by
  intro d s hopen hlast
  have hwrap : (absorb d s).bitcnt = 0 := by
    rw [absorb_bitcnt, hlast]
    rfl
  exact ⟨_, exec_updb_open d hopen, hwrap, absorb_err d s, absorb_fin d s⟩

/-! ### The block boundary -/

/-- Settles O8: after 63 bytes all of them are pending, and the next one completes the block. -/
theorem blockCompletesWithItsLastByte : Obligations.BlockCompletesWithItsLastByte := by
  intro m d hm
  have hbuflen : (absorbAll m State.reset).buflen = 63 := by
    rw [absorbAll_buflen, hm]
    rfl
  have hbitcnt : (absorbAll m State.reset).bitcnt = 504 := by
    rw [absorbAll_bitcnt, hm]
    rfl
  obtain ⟨hchain, hpending⟩ := absorbAll_short_view (s := State.reset) (show m.length < 64 by omega) rfl
  obtain ⟨hchain', -⟩ := absorb_full_view d hbuflen
  rw [hchain, hpending] at hchain'
  refine ⟨_, _, runProgram_update m ⟨rfl, rfl⟩ rfl, hbuflen, hbitcnt, hchain,
    exec_updb_open d (absorbAll_fin m State.reset), ?_, ?_, hchain'⟩
  · rw [absorb_buflen, hbuflen]
    rfl
  · rw [absorb_bitcnt, hbitcnt]
    rfl

/-! ### Slices and chunks -/

/-- Settles O9: of no byte there is nothing to absorb. -/
theorem zeroLengthUpdateIsNoOp : Obligations.ZeroLengthUpdateIsNoOp :=
  ⟨rfl, updateSlice_eq_absorbAll []⟩

/-- Settles O10: both are `Absorb` of each byte. -/
theorem sliceUpdateEqualsItsByteCommands : Obligations.SliceUpdateEqualsItsByteCommands := by
  intro m s hr hf
  rw [updateSlice_eq_absorbAll]
  exact runProgram_update m hr hf

/-- Settles O11: `Absorb` of each byte does not see where a slice ends. -/
theorem chunkingDoesNotMatter : Obligations.ChunkingDoesNotMatter := by
  intro chunks s
  simp only [updateSlice_eq_absorbAll]
  exact foldl_absorbAll chunks s

end Sys2Proof.Machine
end

section
/-! SUPPORT. `FINISH` seen from the message: its padding bytes, the blocks it folds in, and the digest it leaves
(42_finish.md R160 to R169). -/

namespace Sys2Proof.Machine

open Sys2Proof.Safety

/-! ### The padding -/

theorem padLength_pos (p : BitVec 6) : 0 < padLength p := by
  have := p.isLt
  unfold padLength
  split <;> omega

theorem padLength_le (p : BitVec 6) : padLength p ≤ 64 := by
  unfold padLength
  split <;> omega

/-- How many zeros stand behind the `0x80` (42_finish.md R162). -/
theorem padLength_sub_one (p : BitVec 6) :
    padLength p - 1 = if p.toNat < 56 then 55 - p.toNat else 119 - p.toNat := by
  unfold padLength
  split <;> omega

/-- The padding is `0x80` and zeros, since the template is (42_finish.md R162). -/
theorem padding_eq (p : BitVec 6) : padding p = 0x80 :: List.replicate (padLength p - 1) 0x00 := by
  have hpos := padLength_pos p
  have hle := padLength_le p
  obtain ⟨k, hk⟩ : ∃ k, padLength p = k + 1 := ⟨padLength p - 1, by omega⟩
  rw [padding, hk, padTemplate, List.take_succ_cons, List.take_replicate, Nat.min_eq_left (by omega),
    Nat.add_sub_cancel]

/-- The number of zeros that `FINISH` takes from `BUFLEN` is the one that the digest's definition takes from the length
of the message (42_finish.md R162, R169). -/
theorem padLength_ofNat (n : Nat) : padLength (BitVec.ofNat 6 n) = zeroCount n + 1 := by
  simp only [padLength, zeroCount, BitVec.toNat_ofNat]
  split <;> omega

/-! ### The blocks -/

/-- The first of several blocks is folded in before the others. -/
theorem foldBlocks_append (n : Nat) (q : Quad) {bs : List Byte} (cs : List Byte) (h : bs.length = 64) :
    foldBlocks (n + 1) q (bs ++ cs) = foldBlocks n (transform q (blockOfBytes bs)) cs := by
  rw [foldBlocks, blockOfBytes_append _ _ h, List.drop_left' h]

theorem foldBlocks_one (q : Quad) (bs : List Byte) : foldBlocks 1 q bs = transform q (blockOfBytes bs) := rfl

/-- `FINISH` folds in the blocks of the pending bytes, the padding and the length. -/
theorem finishMessage_chain (s : State) :
    (finishMessage s).chain =
      foldBlocks ((s.buflen.toNat + padLength s.buflen + 8) / 64) s.chain (pendingBytes s ++ finishBytes s) := by
  obtain ⟨-, -, -, hchain, -⟩ := finishMessage_fields s
  obtain ⟨hview, -⟩ := absorbAll_view (finishBytes s) s
  rw [hchain, hview, List.length_append, length_pendingBytes, length_finishBytes, Nat.add_assoc]

/-- Where padding and length fit behind the pending bytes they make one block with them (42_finish.md R165). -/
theorem finishMessage_chain_short {s : State} (h : s.buflen.toNat < 56) :
    (finishMessage s).chain = finishedChain s := by
  have hpad : padLength s.buflen = 56 - s.buflen.toNat := if_pos h
  have hone : (s.buflen.toNat + padLength s.buflen + 8) / 64 = 1 := by omega
  have hzeros : padLength s.buflen - 1 = 55 - s.buflen.toNat := (padLength_sub_one _).trans (if_pos h)
  rw [finishMessage_chain, hone, foldBlocks_one, finishedChain, if_pos h, finishBytes, padding_eq, hzeros,
    List.append_assoc]

/-- Where they do not, the zeros run over the block's edge: 56 of them stand in the second block (42_finish.md R165). -/
theorem finishMessage_chain_long {s : State} (h : ¬s.buflen.toNat < 56) :
    (finishMessage s).chain = finishedChain s := by
  have hlt := s.buflen.isLt
  have hpad : padLength s.buflen = 120 - s.buflen.toNat := if_neg h
  have htwo : (s.buflen.toNat + padLength s.buflen + 8) / 64 = 1 + 1 := by omega
  have hzeros : padLength s.buflen - 1 = (63 - s.buflen.toNat) + 56 := by omega
  have hcut : pendingBytes s ++ finishBytes s =
      (pendingBytes s ++ 0x80 :: List.replicate (63 - s.buflen.toNat) 0x00) ++
        (List.replicate 56 0x00 ++ leBytes64 s.bitcnt) := by
    rw [finishBytes, padding_eq, hzeros, List.replicate_add]
    simp only [List.append_assoc, List.cons_append]
  rw [finishMessage_chain, htwo, hcut, foldBlocks_append, foldBlocks_one, finishedChain, if_neg h]
  simp only [List.length_append, length_pendingBytes, List.length_cons, List.length_replicate]
  omega

/-! ### Between commands -/

/-- Bytes whose last one completes a block leave the sequencer idle, whatever it was before. -/
theorem absorbAll_seq_of_block_end {ds : List Byte} {s : State} (hne : ds ≠ [])
    (h : (absorbAll ds s).buflen = 0) : (absorbAll ds s).seq = .idle := by
  obtain ⟨es, d, rfl⟩ : ∃ es d, ds = es ++ [d] := ⟨_, _, (List.dropLast_append_getLast hne).symm⟩
  rw [absorbAll_append, absorbAll_cons, absorbAll_nil] at h ⊢
  rw [absorb_buflen] at h
  have hfull : (absorbAll es s).buflen = 63 := by bv_omega
  rw [absorb_full d hfull]

theorem finishMessage_seq (s : State) : (finishMessage s).seq = .idle := by
  obtain ⟨-, -, -, -, -, -, hbuflen, -⟩ := finishMessage_fields s
  refine absorbAll_seq_of_block_end (fun hnil => ?_) hbuflen
  have hlen := length_finishBytes s
  simp [hnil] at hlen

theorem ready_absorbAll (ds : List Byte) {s : State} (h : Ready s) : Ready (absorbAll ds s) := by
  obtain ⟨hidle, hcmds⟩ := h
  exact ⟨absorbAll_seq_idle ds hidle, by rw [absorbAll_cmds, hcmds]⟩

theorem ready_finishMessage {s : State} (h : Ready s) : Ready (finishMessage s) := by
  obtain ⟨-, -, hcmds, -⟩ := finishMessage_fields s
  exact ⟨finishMessage_seq s, hcmds.trans h.2⟩

theorem ready_resetRegisters {s : State} (h : Ready s) : Ready (resetRegisters s) := ⟨rfl, h.2⟩

/-- The bytes of a message and `FINISH`, on an engine that is not finalized, run as `Absorb` of the bytes and the end of
the message. -/
theorem runProgram_message (m : List Byte) {s : State} (hr : Ready s) (hf : s.fin = false) :
    runProgram (Pseudo.expand (.update m) ++ [.finish]) s = .next (finishMessage (absorbAll m s)) := by
  rw [Pseudo.expand, runProgram_updates m _ hr hf, runProgram_finish (ready_absorbAll m hr)]
  rw [absorbAll_fin, hf]

/-! ### The digest -/

/-- `FINISH` leaves its chaining registers in `DIGEST`. -/
theorem digestBytes_finishMessage (s : State) : digestBytes (finishMessage s) = quadBytes (finishMessage s).chain := by
  obtain ⟨-, -, -, -, -, hdigest, -, -⟩ := finishMessage_fields s
  rw [digestBytes, hdigest, readBytes_storeDigest]

/-- Behind a message absorbed from an empty engine, `FINISH` absorbs what the definition of the digest appends to it
(42_finish.md R169). -/
theorem append_finishBytes_absorbAll (m : List Byte) {s : State} (hbuflen : s.buflen = 0) (hbitcnt : s.bitcnt = 0) :
    m ++ finishBytes (absorbAll m s) = paddedMessage m := by
  have hpending : (absorbAll m s).buflen = BitVec.ofNat 6 m.length := by simp [hbuflen]
  have hcounted : (absorbAll m s).bitcnt = BitVec.ofNat 64 (8 * m.length) := by simp [hbitcnt]
  rw [finishBytes, hpending, hcounted, padding_eq, padLength_ofNat, Nat.add_sub_cancel, paddedMessage,
    List.cons_append]

/-- A message absorbed from an engine with the initial registers, and `FINISH`, leave its MD5. -/
theorem digestBytes_finishMessage_absorbAll (m : List Byte) {s : State} (hchain : s.chain = initVector)
    (hbuflen : s.buflen = 0) (hbitcnt : s.bitcnt = 0) : digestBytes (finishMessage (absorbAll m s)) = md5 m := by
  obtain ⟨-, -, -, hlast, -⟩ := finishMessage_fields (absorbAll m s)
  obtain ⟨hview, -⟩ := absorbAll_view (paddedMessage m) s
  rw [pendingBytes_eq_nil hbuflen, List.nil_append, hchain] at hview
  rw [digestBytes_finishMessage, hlast, ← absorbAll_append, append_finishBytes_absorbAll m hbuflen hbitcnt, hview, md5]

/-- The digest of the empty message, evaluated from its one block (42_finish.md R167). -/
theorem md5_nil :
    md5 [] = [0xd4, 0x1d, 0x8c, 0xd9, 0x8f, 0x00, 0xb2, 0x04, 0xe9, 0x80, 0x09, 0x98, 0xec, 0xf8, 0x42, 0x7e] := by
  decide +kernel

end Sys2Proof.Machine
end

section
/-! PROOFS of the statements about `FINISH` (42_finish.md): the padding, the blocks of the last bytes, the frame, and the
digest of a whole message. -/

namespace Sys2Proof.Machine

open Sys2Proof.Safety

/-- Settles O15, on each side of the branch at 56. -/
theorem paddingReachesFiftySix : Obligations.PaddingReachesFiftySix := by
  intro p
  have hlt := p.isLt
  refine ⟨rfl, padLength_pos p, padLength_le p, ?_, ?_, ?_⟩
  · unfold padLength
    split <;> omega
  · unfold padLength
    split <;> omega
  · rw [padding_eq, padLength_sub_one]

/-- Settles O12: one block or two by the room behind the pending bytes, and a counter of whole blocks since the padded
length is a multiple of 64 bytes. -/
theorem finishDigestsThePaddedTail : Obligations.FinishDigestsThePaddedTail := by
  intro s hopen
  obtain ⟨hfin, -, -, -, -, -, hbuflen, hbitcnt⟩ := finishMessage_fields s
  refine ⟨_, exec_finish_open hopen, ?_, digestBytes_finishMessage s, hfin, hbuflen, hbitcnt, fun hwhole hpending => ?_⟩
  · by_cases h : s.buflen.toNat < 56
    · exact finishMessage_chain_short h
    · exact finishMessage_chain_long h
  · rw [hbitcnt, BitVec.toNat_add, BitVec.toNat_ofNat, padLength]
    split <;> omega

/-- Settles O13: to `BUF` only its `Absorb` steps write, to `DIGEST` only the store of sixteen bytes, and the last
`Absorb` ends a transform. -/
theorem finishFrame : Obligations.FinishFrame := by
  intro s hopen
  obtain ⟨-, herr, hcmds, -, hbuf, hdigest, -, -⟩ := finishMessage_fields s
  refine ⟨_, exec_finish_open hopen, herr, hcmds, finishMessage_seq s, fun a ha => ?_, fun a ha => ?_⟩
  · rw [hbuf]
    exact absorbAll_buf_frame _ s a ha
  · rw [hdigest, storeDigest_eq, Memory.read_writeBytes, length_quadBytes, if_neg (by omega)]

/-- Settles O17: it is the empty message absorbed from the reset registers. -/
theorem finishWithoutUpdateIsLegal : Obligations.FinishWithoutUpdateIsLegal := by
  obtain ⟨hfin, herr, -⟩ := finishMessage_fields State.reset
  have hdigest := digestBytes_finishMessage_absorbAll [] (s := State.reset) rfl rfl rfl
  exact ⟨_, exec_finish_open rfl, hfin, herr, hdigest.trans md5_nil⟩

/-- Settles O18: the program resets the registers, absorbs the message, and finishes it. -/
theorem digestIsMd5OfTheMessage : Obligations.DigestIsMd5OfTheMessage := by
  intro m s hready
  have hreset := ready_resetRegisters hready
  have hrun := (runProgram_reset _ hready).trans (runProgram_message m hreset rfl)
  obtain ⟨hfin, herr, -⟩ := finishMessage_fields (absorbAll m (resetRegisters s))
  refine ⟨_, hrun, digestBytes_finishMessage_absorbAll m rfl rfl rfl, hfin, ?_,
    ready_finishMessage (ready_absorbAll m hreset)⟩
  rw [herr, absorbAll_err, resetRegisters_err]

end Sys2Proof.Machine
end

section
/-! PROOFS of the statements about `RESET` (43_reset.md): its frame, and what a host observes of the commands after it. -/

namespace Sys2Proof.Machine

open Sys2Proof.Safety

/-- Waiting words are no working variables. -/
theorem issue_sameButWork (p : List Instr) {s t : State} (h : SameButWork s t) : SameButWork (issue p s) (issue p t) := by
  obtain ⟨w, n, rfl⟩ := sameButWork_iff.mp h
  rfl

/-- `RESET` leaves the reset state, except for the three fields it does not write (43_reset.md R180). -/
theorem resetRegisters_eq (s : State) :
    resetRegisters s = { State.reset with work := s.work, cmds := s.cmds, draws := s.draws } := rfl

/-- With no word waiting, `RESET` leaves the reset state up to the working variables. -/
theorem reset_sameButWork_resetRegisters {s : State} (h : Ready s) : SameButWork State.reset (resetRegisters s) := by
  obtain ⟨-, hcmds⟩ := h
  rw [resetRegisters_eq, hcmds]
  rfl

/-- Settles O2: the state that `RESET` answers is that of `resetRegisters_eq`. -/
theorem resetExecutesInEveryState : Obligations.ResetExecutesInEveryState :=
  fun s => ⟨resetRegisters s, exec_reset s, resetRegisters_eq s⟩

/-- Settles O3: the two runs of the later commands start from states that differ in the working variables only, and no
observation tells those apart. A micro-operation has no command word, so the program need not even be well formed. -/
theorem resetErasesTheEarlierMessage : Obligations.ResetErasesTheEarlierMessage := by
  intro p s _ hready
  have hissued := issue_sameButWork p (reset_sameButWork_resetRegisters hready)
  obtain ⟨u, t, hu, ht, hsame⟩ := run_sameButWork p.length rfl hissued
  exact ⟨t, u, (runProgram_reset p hready).trans ht, hu, (observe_sameButWork hsame).symm⟩

end Sys2Proof.Machine
end

section
/-! SUPPORT. The text form of a message (44_oneshot.md R190, R191): hex rendering, the UTF-8 bytes of a text, and the
quoted operands of the assembler. -/

namespace Sys2Proof.Machine

/-! ### Hex rendering -/

@[simp] theorem length_hex (bs : List Byte) : (hex bs).length = 2 * bs.length := by
  induction bs with
  | nil => rfl
  | cons b bs ih =>
    rw [hex, List.length_cons, List.length_cons, List.length_cons, ih]
    omega

/-- A digit is looked up in the alphabet of R191. -/
theorem some_hexDigit {n : Nat} (h : n < 16) : some (hexDigit n) = "0123456789abcdef".toList[n]? := by
  interval_cases n <;> rfl

theorem getElem?_hex {bs : List Byte} {j : Nat} (h : j < bs.length) :
    (hex bs)[2 * j]? = some (hexDigit (bs[j].toNat / 16)) ∧
      (hex bs)[2 * j + 1]? = some (hexDigit (bs[j].toNat % 16)) := by
  induction bs generalizing j with
  | nil => cases h
  | cons b bs ih =>
    cases j with
    | zero => exact ⟨rfl, rfl⟩
    | succ j => exact ih (Nat.lt_of_succ_lt_succ h)

theorem toNat_highNibble (b : Byte) : (b.extractLsb' 4 4).toNat = b.toNat / 16 := by
  have hb := b.isLt
  rw [BitVec.extractLsb'_toNat, Nat.shiftRight_eq_div_pow]
  omega

theorem toNat_lowNibble (b : Byte) : (b.extractLsb' 0 4).toNat = b.toNat % 16 := by
  rw [BitVec.extractLsb'_toNat, Nat.shiftRight_zero]

/-! ### `HEXDIGEST` -/

@[simp] theorem length_md5 (m : List Byte) : (md5 m).length = 16 := length_quadBytes _

theorem hexdigest_of_run {m : List Byte} {s t : State} (h : runProgram (Pseudo.expand (.hexdigest m)) s = .next t) :
    hexdigest m s = some (hex (digestBytes t)) := by
  rw [hexdigest, h]

/-- `HEXDIGEST` renders what `RESET`, the bytes and `FINISH` leave in `DIGEST` (44_oneshot.md R190). -/
theorem hexdigest_eq_md5 (m : List Byte) {s : State} (hready : Safety.Ready s) :
    hexdigest m s = some (hex (md5 m)) := by
  obtain ⟨t, hrun, hdigest, -⟩ := digestIsMd5OfTheMessage m s hready
  rw [hexdigest_of_run hrun, hdigest]

/-! ### UTF-8 -/

/-- A text's bytes are those that Lean's encoder puts in one array (log 15). -/
theorem textBytes_eq_utf8Encode (t : List Char) : textBytes t = t.utf8Encode.data.toList.map UInt8.toBitVec := by
  rw [List.utf8Encode, List.data_toByteArray, List.map_flatMap]
  rfl

theorem textBytes_ascii {t : List Char} (h : ∀ c ∈ t, c.toNat < 128) : textBytes t = t.map charByte := by
  induction t with
  | nil => rfl
  | cons c t ih =>
    obtain ⟨hc, ht⟩ := List.forall_mem_cons.mp h
    rw [textBytes_cons, utf8Bytes_ascii hc, ih ht, List.map_cons, List.singleton_append]

/-! ### Quoted operands -/

theorem withBytes_quoted (f : List Byte → Pseudo) {t : List Char} (h : doubleQuote ∉ t) :
    withBytes f (' ' :: doubleQuote :: (t ++ [doubleQuote])) = .ok (.pseudo (f (textBytes t))) := by
  have hblank : doubleQuote ≠ ' ' := by decide
  simp [withBytes, skipBlanks, hblank, bytesOperand, stringBytes_quoted [] h, endOfLine]

theorem assembleLine_hexdigest (l : List Char) :
    assembleLine ("HEXDIGEST ".toList ++ l) = withBytes .hexdigest (' ' :: l) := by
  simp [assembleLine, skipBlanks, takeWord]

theorem assembleLine_update (l : List Char) :
    assembleLine ("UPDATE ".toList ++ l) = withBytes .update (' ' :: l) := by
  simp [assembleLine, skipBlanks, takeWord]

end Sys2Proof.Machine
end

section
/-! PROOFS of the statements about the one-shot `HEXDIGEST` (44_oneshot.md): the digest it renders, messages given as
texts, and the rendering. -/

namespace Sys2Proof.Machine

/-- Settles O20: the run is that of O18, and each of the sixteen bytes takes two characters. -/
theorem hexdigestRendersTheDigest : Obligations.HexdigestRendersTheDigest := by
  intro m s hready
  refine ⟨hexdigest_eq_md5 m hready, ?_⟩
  rw [length_hex, length_md5]

/-- Settles O21: O20's run on the bytes of the text, Lean's encoder, and the assembler on the quoted operand. -/
theorem textMessagesAreTheirUtf8Bytes : Obligations.TextMessagesAreTheirUtf8Bytes := by
  refine ⟨fun t s hready => hexdigest_eq_md5 (textBytes t) hready, fun t => ?_, fun t h => textBytes_ascii h,
    fun t h => ⟨?_, ?_⟩⟩
  · rw [textBytes_eq_utf8Encode, String.utf8Encode_toList, String.toUTF8]
  · rw [assembleLine_hexdigest, withBytes_quoted .hexdigest h]
  · rw [assembleLine_update, withBytes_quoted .update h]

/-- Settles O22: the two digits of a byte are its quotient and remainder by 16, which are its nibbles. -/
theorem hexPlacesTheNibbles : Obligations.HexPlacesTheNibbles := by
  refine fun bs => ⟨length_hex bs, fun j h => ?_⟩
  obtain ⟨hhigh, hlow⟩ := getElem?_hex h
  have hb := bs[j].isLt
  rw [hhigh, hlow, toNat_highNibble, toNat_lowNibble]
  exact ⟨some_hexDigit (by omega), some_hexDigit (by omega)⟩

end Sys2Proof.Machine
end

section
/-! SUPPORT. Misuse faults (60_exceptions.md R205): the table's rows, what a misuse does to the state, and where the
stopping form of the step (R210) differs from the step. -/

namespace Sys2Proof.Machine

open Sys2Proof.Safety

/-! ### The table -/

theorem misuseOf_finish_finalized {s : State} (h : s.fin = true) : misuseOf .finish s = some .doubleFinish := by
  simp [misuseOf, h]

theorem misuseOf_updb_finalized (d : Byte) {s : State} (h : s.fin = true) :
    misuseOf (.updb d) s = some .updateAfterFinish := by
  simp [misuseOf, h]

theorem misuseOf_reserved (s : State) : misuseOf .reserved s = some .reservedCommand := rfl

/-- A micro-operation raises nothing (40_transform.md R101). -/
theorem misuseOf_micro {i : Instr} (h : i.format = .seq) (s : State) : misuseOf i s = none := by
  obtain rfl | ⟨k, rfl⟩ | rfl := micro_cases h
  · rfl
  · fin_cases k <;> rfl
  · rfl

/-- The table has three rows and no other. -/
theorem misuseOf_cases {i : Instr} {s : State} {m : Misuse} (h : misuseOf i s = some m) :
    (i = .finish ∧ s.fin = true ∧ m = .doubleFinish) ∨
    (∃ d, i = .updb d ∧ s.fin = true ∧ m = .updateAfterFinish) ∨
    (i = .reserved ∧ m = .reservedCommand) := by
  cases hf : i.format with
  | seq =>
    rw [misuseOf_micro hf] at h
    cases h
  | cmd =>
    obtain rfl | ⟨d, rfl⟩ | rfl | rfl := command_cases hf
    · cases h
    · obtain ⟨hfin, hm⟩ : s.fin = true ∧ Misuse.updateAfterFinish = m := by simpa [misuseOf] using h
      exact .inr (.inl ⟨d, rfl, hfin, hm.symm⟩)
    · obtain ⟨hfin, hm⟩ : s.fin = true ∧ Misuse.doubleFinish = m := by simpa [misuseOf] using h
      exact .inl ⟨rfl, hfin, hm.symm⟩
    · exact .inr (.inr ⟨rfl, (Option.some.inj h).symm⟩)

/-- On a finalized engine `RESET` is the only command that is no misuse (60_exceptions.md R201). -/
theorem misuseOf_command_finalized {i : Instr} {s : State} (hi : i.format = .cmd) (hreset : i ≠ .reset)
    (hfin : s.fin = true) : ∃ m, misuseOf i s = some m := by
  obtain rfl | ⟨d, rfl⟩ | rfl | rfl := command_cases hi
  · exact absurd rfl hreset
  · exact ⟨_, misuseOf_updb_finalized d hfin⟩
  · exact ⟨_, misuseOf_finish_finalized hfin⟩
  · exact ⟨_, misuseOf_reserved s⟩

/-! ### What a misuse does -/

/-- Every cause is entered by `raise Misuse` and nothing else (60_exceptions.md R204). -/
theorem exec_of_misuse {i : Instr} {s : State} {m : Misuse} (h : misuseOf i s = some m) :
    exec i s = .next (raiseMisuse m s) := by
  obtain ⟨rfl, hfin, rfl⟩ | ⟨d, rfl, hfin, rfl⟩ | ⟨rfl, rfl⟩ := misuseOf_cases h
  · exact exec_finish_finalized hfin
  · exact exec_updb_finalized d hfin
  · exact exec_reserved s

/-- No code is 0, so `ERR` is nonzero after any misuse. -/
theorem stickyErr_ne_zero (err : BitVec 2) (m : Misuse) : stickyErr err m ≠ 0 := by
  by_cases h : err = 0
  · rw [stickyErr, if_pos h]
    cases m <;> decide
  · rwa [stickyErr_of_ne_zero m h]

/-- An instruction that is no misuse and not `RESET` leaves `ERR`. -/
theorem exec_err_of_no_misuse {i : Instr} {s t : State} (h : exec i s = .next t) (hreset : i ≠ .reset)
    (hnone : misuseOf i s = none) : t.err = s.err := by
  cases exec_effect h with
  | reset => exact absurd rfl hreset
  | misuse m hm => cases hnone.symm.trans hm
  | absorb d _ => exact absorb_err d s
  | finish _ => exact finishMessage_err s
  | micro _ hframe _ => rw [hframe]

/-! ### The stopping form of the step -/

theorem guardedStep_noCommand {s : State} (hs : s.seq = .idle) (hc : s.cmds = []) : guardedStep s = .next s := by
  simp [guardedStep, fetch, hs, fetchCommand, hc]

theorem guardedStep_of_misuse {s t : State} {c : CodeWord} {i : Instr} {m : Misuse} (hf : fetch s = some (c, t))
    (hd : decode c = .ok i) (hm : misuseOf i t = some m) : guardedStep s = .fault (.misuse m) := by
  simp [guardedStep, hf, hd, hm]

theorem guardedStep_of_no_misuse {s t : State} {c : CodeWord} {i : Instr} (hf : fetch s = some (c, t))
    (hd : decode c = .ok i) (hm : misuseOf i t = none) : guardedStep s = step s := by
  simp [guardedStep, step, hf, hd, hm]

/-- While a transform runs, `SEQ` selects a micro-operation (40_transform.md R119). -/
theorem decode_seqRegisterWord {q : Seq} (h : q ≠ .idle) :
    ∃ i, decode (.seq (seqRegisterWord q)) = .ok i ∧ i.format = .seq := by
  cases q with
  | idle => exact absurd rfl h
  | load => exact ⟨.tLoad, by decide, rfl⟩
  | round k => exact ⟨roundInstr k, decode_roundWord k, roundInstr_format k⟩
  | add => exact ⟨.tAdd, by decide, rfl⟩

/-- What the stopping step can do: fault where the step takes a misuse off the channel, else what the step does. -/
theorem guardedStep_cases (s : State) :
    (∃ m, guardedStep s = .fault (.misuse m) ∧ step s = .next (raiseMisuse m { s with cmds := s.cmds.tail })) ∨
      guardedStep s = step s := by
  by_cases hs : s.seq = .idle
  · cases hc : s.cmds with
    | nil => exact .inr ((guardedStep_noCommand hs hc).trans (step_noCommand hs hc).symm)
    | cons w ws =>
      cases hm : misuseOf (decodeCmd w) { s with cmds := ws } with
      | none => exact .inr (guardedStep_of_no_misuse (fetch_idle hs hc) rfl hm)
      | some m =>
        exact .inl ⟨m, guardedStep_of_misuse (fetch_idle hs hc) rfl hm, (step_command hs hc).trans (exec_of_misuse hm)⟩
  · obtain ⟨i, hd, hi⟩ := decode_seqRegisterWord hs
    exact .inr (guardedStep_of_no_misuse (fetch_busy hs) hd (misuseOf_micro hi s))

/-- A stopping step that answers a next state is the step. -/
theorem step_of_guardedStep_next {s t : State} (h : guardedStep s = .next t) : step s = .next t := by
  obtain ⟨m, hfault, -⟩ | heq := guardedStep_cases s
  · cases hfault.symm.trans h
  · exact heq.symm.trans h

/-- A fault-free run of the stopping machine begins with a step that answers a next state. -/
theorem guarded_run_succ {k : Nat} {s t : State} (h : Host.Core.run guardedCore (k + 1) s = .next t) :
    ∃ u, guardedStep s = .next u ∧ Host.Core.run guardedCore k u = .next t := by
  cases hg : guardedCore.step s with
  | next u => exact ⟨u, hg, by simpa only [Host.Core.run, hg] using h⟩
  | fault r =>
    simp only [Host.Core.run, hg] at h
    cases h
  | refused r =>
    simp only [Host.Core.run, hg] at h
    cases h

end Sys2Proof.Machine
end

section
/-! PROOFS of the statements about misuse faults (60_exceptions.md): the table, each cause, the finalized engine, and the
stopping form of the step. -/

namespace Sys2Proof.Machine

open Sys2Proof.Safety

/-! ### The table -/

/-- Settles O24: the reserved code is a row of the table in every state. -/
theorem reservedCommandFaults : Obligations.ReservedCommandFaults :=
  fun s => exec_of_misuse (misuseOf_reserved s)

/-- Settles O25: `UPDB` on a finalized engine is a row of the table. -/
theorem updbAfterFinishFaults : Obligations.UpdbAfterFinishFaults :=
  fun d _ hfin => exec_of_misuse (misuseOf_updb_finalized d hfin)

/-- Settles O23: the three rows, `RESET`, and for the last clause that an instruction outside the rows raises nothing. -/
theorem misuseTableIsComplete : Obligations.MisuseTableIsComplete := by
  intro s
  refine ⟨fun hfin => exec_of_misuse (misuseOf_finish_finalized hfin), fun hfin d => updbAfterFinishFaults d s hfin,
    reservedCommandFaults s, ?_, ?_⟩
  · rintro t ⟨⟩
    exact resetRegisters_err s
  · intro i t h hreset hreserved hfinalized
    refine exec_err_of_no_misuse h hreset (Option.eq_none_iff_forall_ne_some.mpr fun m hm => ?_)
    obtain ⟨hi, hfin, -⟩ | ⟨d, hi, hfin, -⟩ | ⟨hi, -⟩ := misuseOf_cases hm
    · exact (hfinalized hfin).1 hi
    · exact (hfinalized hfin).2 d hi
    · exact hreserved hi

/-- Settles O26: on a finalized engine every command but `RESET` is a row of the table. -/
theorem finalizedEngineRunsOnlyReset : Obligations.FinalizedEngineRunsOnlyReset := by
  intro s hfin
  refine ⟨exec_of_misuse (misuseOf_finish_finalized hfin), fun i hi hreset => ?_⟩
  obtain ⟨m, hm⟩ := misuseOf_command_finalized (beq_iff_eq.mp hi) hreset hfin
  exact ⟨raiseMisuse m s, exec_of_misuse hm, rfl, stickyErr_ne_zero s.err m⟩

/-! ### The stopping form of the step -/

/-- Settles O28: the waiting word's row makes the stopping step fault, and `guardedStep_cases` gives the rest. -/
theorem guardedStepFaultsExactlyOnMisuse : Obligations.GuardedStepFaultsExactlyOnMisuse := by
  intro s
  refine ⟨fun w ws hs hc => ?_, fun m hfault => ?_, fun hnofault => ?_⟩
  · have hf := fetch_idle hs hc
    exact ⟨fun hfin hd => guardedStep_of_misuse hf hd (misuseOf_finish_finalized hfin),
      fun hfin d hd => guardedStep_of_misuse hf hd (misuseOf_updb_finalized d hfin),
      fun hd => guardedStep_of_misuse hf hd (misuseOf_reserved _)⟩
  · obtain ⟨m', hfault', hstep⟩ | heq := guardedStep_cases s
    · cases hfault.symm.trans hfault'
      exact hstep
    · obtain ⟨t, ht⟩ := everyStepCompletes s
      cases (hfault.symm.trans heq).trans ht
  · obtain ⟨m, hfault, -⟩ | heq := guardedStep_cases s
    · exact absurd hfault (hnofault m)
    · exact ⟨heq, everyStepCompletes s⟩

/-- Settles O29, by induction on the number of steps. -/
theorem guardedRunsAgreeWithTheMachine : Obligations.GuardedRunsAgreeWithTheMachine := by
  intro k
  induction k with
  | zero => exact fun _ _ h => h
  | succ k ih =>
    intro s t h
    obtain ⟨u, hu, hrest⟩ := guarded_run_succ h
    exact (run_next k (step_of_guardedStep_next hu)).trans (ih u t hrest)

end Sys2Proof.Machine
end

section
/-! SUPPORT. Reset and the command protocol (70_reset_and_hazards.md): on a finalized engine every command but `RESET` is a
misuse, of which only `ERR` keeps a trace (R237); and the reset table holds of what `RESET` writes (R230). -/

namespace Sys2Proof.Machine

open Sys2Proof.Safety

/-! ### The finalized engine -/

/-- The words still waiting decide no misuse. -/
theorem misuseOf_issue (i : Instr) (p : List Instr) (s : State) : misuseOf i (issue p s) = misuseOf i s := rfl

/-- A program that starts with a misuse goes on from the misuse's entry. -/
theorem runProgram_misuse {i : Instr} (p : List Instr) {s : State} {m : Misuse} (hi : i.issuable = true) (hr : Ready s)
    (hm : misuseOf i s = some m) : runProgram (i :: p) s = runProgram p (raiseMisuse m s) :=
  runProgram_cons p hi hr.1 hr.2 (exec_of_misuse ((misuseOf_issue i p s).trans hm))

theorem ready_raiseMisuse (m : Misuse) {s : State} (h : Ready s) : Ready (raiseMisuse m s) := h

/-- On a finalized engine a program without `RESET` changes no state but `ERR`. -/
theorem runProgram_finalized (p : List Instr) {s : State} (hwf : Program.wf p = true) (hp : .reset ∉ p) (hr : Ready s)
    (hfin : s.fin = true) : ∃ e, runProgram p s = .next { s with err := e } := by
  induction p generalizing s with
  | nil => exact ⟨s.err, runProgram_nil s⟩
  | cons i p ih =>
    obtain ⟨hi, hrest⟩ : i.issuable = true ∧ Program.wf p = true := by simpa [Program.wf] using hwf
    obtain ⟨hreset, hp⟩ := not_or.mp (List.mem_cons.not.mp hp)
    obtain ⟨m, hm⟩ := misuseOf_command_finalized (beq_iff_eq.mp hi) (Ne.symm hreset) hfin
    rw [runProgram_misuse p hi hr hm]
    exact ih hrest hp (ready_raiseMisuse m hr) hfin

/-! ### The reset table -/

/-- The registers that `RESET` writes have the tabulated values, from whatever state (70_reset_and_hazards.md R230). -/
theorem hasResetValues_resetRegisters (s : State) : HasResetValues (resetRegisters s) where
  chain := resetRegisters_chain s
  bitcnt := resetRegisters_bitcnt s
  buflen := resetRegisters_buflen s
  buf a _ := Memory.read_nil a
  digest j _ := Memory.read_nil j
  fin := resetRegisters_fin s
  err := resetRegisters_err s
  seq := resetRegisters_seq s

/-- `RESET` straight after hardware reset changes nothing (70_reset_and_hazards.md R231). -/
theorem resetRegisters_reset : resetRegisters State.reset = State.reset := rfl

end Sys2Proof.Machine
end

section
/-! PROOFS of the statements about reset and hazards (70_reset_and_hazards.md): the reset table, the first message after
hardware reset, and the digest from `FINISH` on. -/

namespace Sys2Proof.Machine

open Sys2Proof.Safety

/-- Settles O1: hardware reset gives a state that `RESET` leaves, and what `RESET` writes is the table. -/
theorem resetStateHasTabulatedValues : Obligations.ResetStateHasTabulatedValues :=
  ⟨resetRegisters_reset ▸ hasResetValues_resetRegisters State.reset,
    fun s => ⟨resetRegisters s, exec_reset s, hasResetValues_resetRegisters s⟩⟩

/-- Settles O19: hardware reset leaves an engine between commands, not finalized and with the initial registers, which
is all that a message needs. -/
theorem firstMessageNeedsNoReset : Obligations.FirstMessageNeedsNoReset := by
  intro m
  obtain ⟨hfin, herr, -⟩ := finishMessage_fields (absorbAll m State.reset)
  refine ⟨_, runProgram_message m ⟨rfl, rfl⟩ rfl, digestBytes_finishMessage_absorbAll m rfl rfl rfl, hfin, ?_⟩
  rw [herr, absorbAll_err]
  rfl

/-- Settles O32: the program changes `ERR` only. -/
theorem digestStaysUntilReset : Obligations.DigestStaysUntilReset := by
  intro p s hwf hp hready hfin
  obtain ⟨e, hrun⟩ := runProgram_finalized p hwf hp hready hfin
  exact ⟨_, hrun, rfl, hfin⟩

end Sys2Proof.Machine
end
